-- ==== Sys2Proof/Word.lean ====
section
/-! DEFINITION. The word types of the Mistsuu 8-bit ISA: every register and memory cell is one byte (R6, R8, R10),
an opcode is one nibble (R44). Both wrap (R8). -/

namespace Sys2Proof

/-- A register, a memory cell or an address: 8 bits, unsigned, wrapping modulo 256 (R6, R8). -/
abbrev Byte := BitVec 8

/-- An opcode code: the high nibble of an opcode byte (R44). -/
abbrev Nibble := BitVec 4

end Sys2Proof
end

