-- ==== Sys2Proof/Config.lean ====
section
/-! DEFINITION. The named parameters of R7, as plain data: what the source leaves open and one implementation fixes.
The default VALUES stand in Machine/Defaults.lean. No parameter is fixed inside a meaning: every meaning reads it from
`State.params`, so a statement about every state is a statement about every parameter value. -/

namespace Sys2Proof

/-- The parameter `opcodeMap : Mnemonic → Fin 16` (R7, R49, R50) as plain data: one code for each of the 15 mnemonics.
R50's constraints are `OpcodeMap.wf` (WellFormed.lean). -/
structure OpcodeMap where
  nop : Nibble
  lda : Nibble
  add : Nibble
  sub : Nibble
  sta : Nibble
  ldi : Nibble
  jmp : Nibble
  jc  : Nibble
  jz  : Nibble
  aei : Nibble
  sei : Nibble
  shl : Nibble
  slf : Nibble
  out : Nibble
  hlt : Nibble
deriving DecidableEq, Repr

/-- The parameter `lowNibblePolicy` (R7, R45, D2): what an opcode byte with a nonzero low nibble does. -/
inductive LowNibblePolicy where
  /-- it decodes by its high nibble alone (the default, R45) -/
  | ignore
  /-- it halts as an undefined opcode (U2) -/
  | haltIfNonzero
deriving DecidableEq, Repr

/-- The parameter `refreshOp` (R7, R89, D5): what the refresh after `SUB` and `SEI` computes. -/
inductive RefreshOp where
  /-- every refresh adds (the default, R89) -/
  | add
  /-- the refresh repeats the operation of the flagged compute before it -/
  | likeCompute
deriving DecidableEq, Repr

/-- The parameter `shlOrder` (R7, R98, D7): the order of `SHL`'s two loads. -/
inductive ShlOrder where
  /-- `A` first (the default, R98) -/
  | aThenB
  /-- `B` first -/
  | bThenA
deriving DecidableEq, Repr

/-- The parameters of R7 that hold for a whole run. `automaticMode` and `clockRateHz` set the host's pacing only
(D16, R117, R135): no meaning reads them, and Obligations.PacingChangesNoResult says that none could. -/
structure Params where
  opcodeMap       : OpcodeMap
  lowNibblePolicy : LowNibblePolicy
  refreshOp       : RefreshOp
  shlOrder        : ShlOrder
  automaticMode   : Bool
  clockRateHz     : Nat
deriving DecidableEq, Repr

/-- The parameter `resetRegs` (R7, R26, D4): the start values the source does not give. -/
structure ResetRegs where
  mem         : Byte
  a           : Byte
  b           : Byte
  sum         : Byte
  instruction : Byte
  out         : Byte
  zero        : Bool
  carry       : Bool
deriving DecidableEq, Repr

end Sys2Proof
end

