-- ==== Sys2Proof/Machine/Defaults.lean ====
section
/-! DEFINITION. The default values of the parameters of R7: the spec's own choices where the source leaves a point
open. Each is a log entry (notes/assumptions). -/

namespace Sys2Proof

/-- The default opcode map of R49: the list order, with 13 vacant (D1).
DESIGN CHOICE (the spec's, D1; log entry 2), unsafe: only LDI, OUT and HLT are the source's. -/
def OpcodeMap.standard : OpcodeMap :=
  { nop := 0, lda := 1, add := 2, sub := 3, sta := 4, ldi := 5, jmp := 6, jc := 7, jz := 8, aei := 9, sei := 10,
    shl := 11, slf := 12, out := 14, hlt := 15 }

/-- The default switches of R7. DESIGN CHOICE (the spec's D2, D5, D7; log entries 3, 5, 6), unsafe. The two pacing
parameters have no default in the spec: any value will do, since nothing reads them (log entry 9). -/
def Params.standard : Params :=
  { opcodeMap := OpcodeMap.standard, lowNibblePolicy := .ignore, refreshOp := .add, shlOrder := .aThenB,
    automaticMode := true, clockRateHz := 1 }

/-- The default start values of R26: all zero and false. DESIGN CHOICE (the spec's D4; log entry 4), unsafe. -/
def ResetRegs.standard : ResetRegs :=
  { mem := 0, a := 0, b := 0, sum := 0, instruction := 0, out := 0, zero := false, carry := false }

/-- What a memory address that no image byte and no `STA` has listed reads as: the padding byte 0 of R66.
DESIGN CHOICE (log entry 10): memory before any image is loaded reads as the all-zero image. -/
def unlistedByte : Byte := 0

end Sys2Proof
end

