-- ==== Sys2Proof/Syntax.lean ====
section
/-! DEFINITION. The instructions of the Mistsuu 8-bit ISA: one constructor per row of spec/opcode_table.json, the
undefined code among them. An operand is the operand byte itself (R44, R47); there are no register fields (R11). -/

namespace Sys2Proof

/-- The 15 mnemonics (R1), in the source's list order. -/
inductive Mnemonic where
  | nop | lda | add | sub | sta | ldi | jmp | jc | jz | aei | sei | shl | slf | out | hlt
deriving DecidableEq, Repr

/-- An instruction as decoded: a mnemonic with its operand byte where it takes one, or the undefined code. -/
inductive Instr where
  /-- `NOP` (R104) -/
  | nop
  /-- `LDA a` (R91): `a` is an address -/
  | lda (a : Byte)
  /-- `ADD a` (R94): `a` is an address -/
  | add (a : Byte)
  /-- `SUB a` (R95): `a` is an address -/
  | sub (a : Byte)
  /-- `STA a` (R92): `a` is an address -/
  | sta (a : Byte)
  /-- `LDI n` (R93): `n` is a value -/
  | ldi (n : Byte)
  /-- `JMP t` (R101): `t` is a target address -/
  | jmp (t : Byte)
  /-- `JC t` (R102): `t` is a target address -/
  | jc (t : Byte)
  /-- `JZ t` (R103): `t` is a target address -/
  | jz (t : Byte)
  /-- `AEI n` (R96): `n` is a value -/
  | aei (n : Byte)
  /-- `SEI n` (R97): `n` is a value -/
  | sei (n : Byte)
  /-- `SHL a` (R98): `a` is an address -/
  | shl (a : Byte)
  /-- `SLF` (R99) -/
  | slf
  /-- the undefined code (R107), the table's row `(undefined)` -/
  | undefined
  /-- `OUT` (R105) -/
  | out
  /-- `HLT` (R106) -/
  | hlt
deriving DecidableEq, Repr

end Sys2Proof
end

