-- ==== Sys2Proof/WellFormed.lean ====
section
/-! DEFINITION. Well-formedness. An `Instr` needs no check: its operand is a byte, and every byte 0..255 is a legal
operand (R47, R100), so every term of `Instr` is well formed. What the source does constrain is the opcode map (R50);
the four checks stand here one by one. -/

namespace Sys2Proof

/-- The 15 codes of a map, in the mnemonics' list order. -/
def OpcodeMap.codes (m : OpcodeMap) : List Nibble :=
  [m.nop, m.lda, m.add, m.sub, m.sta, m.ldi, m.jmp, m.jc, m.jz, m.aei, m.sei, m.shl, m.slf, m.out, m.hlt]

/-- R50: the 15 codes are distinct. -/
def OpcodeMap.distinct (m : OpcodeMap) : Bool := decide m.codes.Nodup

/-- R50: `LDI ↦ 5`. -/
def OpcodeMap.ldiFixed (m : OpcodeMap) : Bool := m.ldi == 5

/-- R50: `OUT ↦ 14`. -/
def OpcodeMap.outFixed (m : OpcodeMap) : Bool := m.out == 14

/-- R50: `HLT ↦ 15`. -/
def OpcodeMap.hltFixed (m : OpcodeMap) : Bool := m.hlt == 15

/-- Every map the source allows (R50). That exactly one code is then vacant follows by counting
(Obligations.ExactlyOneVacantCode). -/
def OpcodeMap.wf (m : OpcodeMap) : Bool :=
  m.distinct && m.ldiFixed && m.outFixed && m.hltFixed

end Sys2Proof
end

