-- ==== Sys2Proof/Decode.lean ====
section
/-! DEFINITION. Encoding and decoding (R44–R53, R78). The decoder reads the high nibble through the opcode map, knows
the length from the opcode alone (R46), and answers on every list of bytes, an instruction with the rest or a refusal
by name. The encoder is written from the same tables. -/

namespace Sys2Proof

/-- The 15 mnemonics in list order (R57). -/
def Mnemonic.all : List Mnemonic :=
  [.nop, .lda, .add, .sub, .sta, .ldi, .jmp, .jc, .jz, .aei, .sei, .shl, .slf, .out, .hlt]

/-- How a mnemonic uses its operand byte (R48). -/
inductive OperandMode where
  /-- no operand byte: format F1 -/
  | noOperand
  /-- the operand byte is an address: format F2, address mode -/
  | address
  /-- the operand byte is the value or the jump target itself: format F2, immediate/target mode -/
  | immediate
deriving DecidableEq, Repr

/-- The operand mode of each mnemonic (the table of R48 and the formats of R44). -/
def Mnemonic.mode : Mnemonic → OperandMode
  | .nop => .noOperand
  | .lda => .address
  | .add => .address
  | .sub => .address
  | .sta => .address
  | .ldi => .immediate
  | .jmp => .immediate
  | .jc  => .immediate
  | .jz  => .immediate
  | .aei => .immediate
  | .sei => .immediate
  | .shl => .address
  | .slf => .noOperand
  | .out => .noOperand
  | .hlt => .noOperand

/-- Whether a mnemonic is one of the 11 operand-taking ones (R46, R58). -/
def Mnemonic.takesOperand (m : Mnemonic) : Bool := m.mode != .noOperand

/-- `opcodeMap(m)` (R49). -/
def OpcodeMap.code (map : OpcodeMap) : Mnemonic → Nibble
  | .nop => map.nop
  | .lda => map.lda
  | .add => map.add
  | .sub => map.sub
  | .sta => map.sta
  | .ldi => map.ldi
  | .jmp => map.jmp
  | .jc  => map.jc
  | .jz  => map.jz
  | .aei => map.aei
  | .sei => map.sei
  | .shl => map.shl
  | .slf => map.slf
  | .out => map.out
  | .hlt => map.hlt

/-- `Decode(op)` of R78: the mnemonic whose code is `op`, or none, the spec's `Undefined`. -/
def OpcodeMap.lookup (map : OpcodeMap) (op : Nibble) : Option Mnemonic :=
  Mnemonic.all.find? (fun m => map.code m == op)

/-- `v[7:4]` of an opcode byte (R44). -/
def highNibble (v : Byte) : Nibble := v.extractLsb' 4 4

/-- `v[3:0]` of an opcode byte, the unused field `z` (R44). -/
def lowNibble (v : Byte) : Nibble := v.extractLsb' 0 4

/-- The mnemonic an opcode byte executes as (R45, R52, R78): its high nibble decides, and the low nibble only under
`lowNibblePolicy = haltIfNonzero`. None is the undefined opcode (R51). -/
def decodeOpcode (p : Params) (opcode : Byte) : Option Mnemonic :=
  match p.lowNibblePolicy with
  | .ignore => p.opcodeMap.lookup (highNibble opcode)
  | .haltIfNonzero => if lowNibble opcode = 0 then p.opcodeMap.lookup (highNibble opcode) else none

/-- The instruction of a mnemonic with its operand byte (unused by the four that take none). -/
def Mnemonic.toInstr (operand : Byte) : Mnemonic → Instr
  | .nop => .nop
  | .lda => .lda operand
  | .add => .add operand
  | .sub => .sub operand
  | .sta => .sta operand
  | .ldi => .ldi operand
  | .jmp => .jmp operand
  | .jc  => .jc operand
  | .jz  => .jz operand
  | .aei => .aei operand
  | .sei => .sei operand
  | .shl => .shl operand
  | .slf => .slf
  | .out => .out
  | .hlt => .hlt

/-- The instruction an opcode byte and the byte after it stand for. Memory is circular (R80), so the engine always has
both bytes and this is total: every one of the 256 opcode bytes executes as something (R52). -/
def decodePair (p : Params) (opcode operand : Byte) : Instr :=
  match decodeOpcode p opcode with
  | some m => m.toInstr operand
  | none => .undefined

/-- Whether an opcode byte starts a two-byte instruction (R46). -/
def isTwoByte (p : Params) (opcode : Byte) : Bool :=
  match decodeOpcode p opcode with
  | some m => m.takesOperand
  | none => false

/-- Why a list of bytes is no instruction. Memory never raises these: its bytes do not run out (R80). -/
inductive DecodeError where
  /-- there is no byte at all -/
  | noOpcode
  /-- the opcode takes an operand (R46) and the list ends before it -/
  | noOperandByte
deriving DecidableEq, Repr

/-- Decode the instruction at the front of a list of bytes, with the bytes after it (R44, R46, R53). -/
def decode (p : Params) : List Byte → Except DecodeError (Instr × List Byte)
  | [] => .error .noOpcode
  | [opcode] => if isTwoByte p opcode then .error .noOperandByte else .ok (decodePair p opcode 0, [])
  | opcode :: operand :: rest =>
    if isTwoByte p opcode then .ok (decodePair p opcode operand, rest)
    else .ok (decodePair p opcode operand, operand :: rest)

/-- The mnemonic of an instruction; none for the undefined code. -/
def Instr.mnemonic : Instr → Option Mnemonic
  | .nop => some .nop
  | .lda _ => some .lda
  | .add _ => some .add
  | .sub _ => some .sub
  | .sta _ => some .sta
  | .ldi _ => some .ldi
  | .jmp _ => some .jmp
  | .jc _ => some .jc
  | .jz _ => some .jz
  | .aei _ => some .aei
  | .sei _ => some .sei
  | .shl _ => some .shl
  | .slf => some .slf
  | .undefined => none
  | .out => some .out
  | .hlt => some .hlt

/-- The operand bytes of an instruction: one for the 11 operand-taking mnemonics, none otherwise (R44, R46). -/
def Instr.operandBytes : Instr → List Byte
  | .nop => []
  | .lda a => [a]
  | .add a => [a]
  | .sub a => [a]
  | .sta a => [a]
  | .ldi n => [n]
  | .jmp t => [t]
  | .jc t => [t]
  | .jz t => [t]
  | .aei n => [n]
  | .sei n => [n]
  | .shl a => [a]
  | .slf => []
  | .undefined => []
  | .out => []
  | .hlt => []

/-- The instruction's length in bytes (R46, R53). -/
def Instr.length (i : Instr) : Nat :=
  match i.mnemonic with
  | some m => if m.takesOperand then 2 else 1
  | none => 1

/-- The sixteen codes, in order. -/
def allCodes : List Nibble := [0, 1, 2, 3, 4, 5, 6, 7, 8, 9, 10, 11, 12, 13, 14, 15]

/-- The undefined code: the first code that no mnemonic has (R50); 13 under the default map (R49, R51). A map of 15
codes always leaves one. -/
def OpcodeMap.vacant (map : OpcodeMap) : Nibble :=
  (allCodes.find? (fun c => !map.codes.contains c)).getD 0

/-- The opcode byte `code << 4`, low nibble 0 (R44, R62). -/
def opcodeByte (code : Nibble) : Byte := code ++ (0 : Nibble)

/-- The bytes of an instruction: its opcode byte, then its operand byte (R44, R62). -/
def encode (map : OpcodeMap) (i : Instr) : List Byte :=
  match i.mnemonic with
  | some m => opcodeByte (map.code m) :: i.operandBytes
  | none => [opcodeByte map.vacant]

/-- The bytes of a table word of `nbits` bits, first byte least significant, zeros above `nbits`: the two bytes of the
longest instruction (R46). -/
def tableWordBytes (nbits w : Nat) : Byte × Byte :=
  let v := w % 2 ^ nbits
  (BitVec.ofNat 8 v, BitVec.ofNat 8 (v / 256))

/-- What the decoder reads from a table word under the default parameters. -/
def decodeTableWord (nbits w : Nat) : Option Instr :=
  match decode Params.standard [(tableWordBytes nbits w).1, (tableWordBytes nbits w).2] with
  | .ok (i, _) => some i
  | .error _ => none

end Sys2Proof
end

