-- ==== Sys2Proof/Machine/State.lean ====
section
/-! DEFINITION. The state of the engine (R10, R23, R25), as plain data, with what a run carries beside it: the
parameters of R7, the host's forthcoming answers (R76, D15) and the `Out` sequence written so far (R18, D17). -/

namespace Sys2Proof.Machine

/-- Why a run is `Halted` (R106, R107). The spec asks that the reason stand beside the status (R107, U1). -/
inductive HaltReason where
  /-- by `HLT` (R106) -/
  | hlt
  /-- by an undefined opcode (R107) -/
  | undefinedOpcode
deriving DecidableEq, Repr

/-- The run status (R23): `Halted` and `Cancelled` are terminal. -/
inductive RunStatus where
  | running
  | halted (reason : HaltReason)
  | cancelled
deriving DecidableEq, Repr

/-- The host's answer to a micro-step event (R76, R117). -/
inductive HostAnswer where
  /-- the source's `Continue` -/
  | proceed
  /-- the source's `Stop` -/
  | stop
deriving DecidableEq, Repr

/-- The 256-byte memory (R24, R28): address and byte, addresses strictly rising, no entry equal to `unlistedByte`
(`Memory.wf`, Machine/Ops.lean). -/
abbrev Memory := List Host.Cell

/-- Faults. THE ENGINE RAISES NONE (R108: "The engine raises no synchronous exception"): the type has no constructor,
so no meaning and no step can fault. Safe: nothing is claimed of a fault. -/
inductive Fault where
deriving DecidableEq, Repr

/-- Refusals. Every row of the table has its meaning, so none is ever answered. -/
inductive Refusal where
  /-- an instruction not modelled yet, rejected by name in `exec`'s arm; raised by no arm. Safe. -/
  | notModelled (mnemonic : String)
deriving DecidableEq, Repr

/-- The complete state (R10, R25) and what a run carries beside it. -/
structure State where
  /-- the memory address register `Mem` (R15) -/
  mem : Byte
  /-- the accumulator `A` (R12) -/
  a : Byte
  /-- the second ALU operand `B` (R13) -/
  b : Byte
  /-- the ALU result `Sum` (R14) -/
  sum : Byte
  /-- the instruction register `Instruction` (R16) -/
  instruction : Byte
  /-- the program counter `PC` (R17) -/
  pc : Byte
  /-- the output register `Out` (R18) -/
  out : Byte
  /-- the flag `Zero` (R19) -/
  zero : Bool
  /-- the flag `Carry` (R20) -/
  carry : Bool
  /-- `M[0..255]` (R24) -/
  memory : Memory
  /-- the run status (R23) -/
  status : RunStatus
  /-- the position inside the current instruction (R25): how many of its micro-steps have happened. 0 is an instruction
  boundary, where MS1 comes next. Never above 11 in a run (the table of 40_engine.md section 7). -/
  position : Nat
  /-- the model's own field: the values written by `OUT` so far, oldest first (R18, R105, D17) -/
  outSeq : List Byte
  /-- the model's own field: the host's answers to the coming micro-step events, next first; past the end of the list
  the host answers `Continue` (R76, D15; log entry 8) -/
  answers : List HostAnswer
  /-- the parameters of R7: constants of the run, which no step writes (log entry 1) -/
  params : Params
deriving DecidableEq, Repr

/-- The start of a run (R26, R125, R128): registers and flags at `resetRegs`, `PC` 0, memory as loaded, status
`Running`, at MS1 of the instruction at address 0. -/
def State.start (p : Params) (r : ResetRegs) (memory : Memory) (answers : List HostAnswer) : State :=
  { mem := r.mem, a := r.a, b := r.b, sum := r.sum, instruction := r.instruction, pc := 0, out := r.out,
    zero := r.zero, carry := r.carry, memory := memory, status := .running, position := 0, outSeq := [],
    answers := answers, params := p }

/-- The machine right after reset (R26): the default parameters and start values, no image loaded, a host that always
answers `Continue` (log entries 4, 8, 10). -/
def State.reset : State := State.start Params.standard ResetRegs.standard [] []

end Sys2Proof.Machine
end

