-- ==== Sys2Proof/Machine/Ops.lean ====
section
/-! DEFINITION. The shared operations: memory, the micro-step with its host query (R75, R76), the fetch (R77), the
register moves every instruction is made of, and the end of a cycle. The engine takes no exception (R108, R111), so
where other machines have an exception entry this one has two ways to end a run: `haltRun` (R113) and the `Stop`
answer inside `State.emit` (R114). There is no return from either (R112). -/

namespace Sys2Proof.Machine

/-! ### Memory (R24, R28–R31) -/

/-- The number of addresses (R6, R24). -/
def memorySize : Nat := 256

/-- The byte at a key: the first entry with that key, or `unlistedByte`. -/
def Memory.get : List Host.Cell → Nat → Byte
  | [], _ => unlistedByte
  | (k, v) :: rest, key => if key = k then v else Memory.get rest key

/-- Set the byte at a key, keeping the list sorted and free of entries equal to `unlistedByte`. -/
def Memory.put : List Host.Cell → Nat → Byte → List Host.Cell
  | [], key, x => if x = unlistedByte then [] else [(key, x)]
  | (k, v) :: rest, key, x =>
    if key < k then (if x = unlistedByte then (k, v) :: rest else (key, x) :: (k, v) :: rest)
    else if key = k then (if x = unlistedByte then rest else (key, x) :: rest)
    else (k, v) :: Memory.put rest key x

/-- `MemRead(a, 1)` (R30). -/
def Memory.read (m : Memory) (addr : Byte) : Byte := Memory.get m addr.toNat

/-- `MemWrite(a, 1, v)` (R30). -/
def Memory.write (m : Memory) (addr v : Byte) : Memory := Memory.put m addr.toNat v

/-- The canonical form: addresses strictly rising, all inside the 256 bytes, no entry equal to `unlistedByte`. -/
abbrev Memory.wf (m : Memory) : Prop :=
  m.Pairwise (fun c d => c.1 < d.1) ∧ ∀ c ∈ m, c.1 < memorySize ∧ c.2 ≠ unlistedByte

/-- Memory holding the given bytes from an address upward, `unlistedByte` elsewhere (R71: verbatim). -/
def Memory.ofBytesFrom : Nat → List Byte → Memory
  | _, [] => []
  | k, x :: xs => if x = unlistedByte then Memory.ofBytesFrom (k + 1) xs else (k, x) :: Memory.ofBytesFrom (k + 1) xs

/-- Memory holding a Code Image, byte `i` at address `i` (R71, R119). -/
def Memory.ofImage (image : List Byte) : Memory := Memory.ofBytesFrom 0 (image.take memorySize)

/-! ### The micro-step and its host query (R75, R76, R114) -/

/-- One assignment of the pseudocode (R75). -/
abbrev MicroOp := State → State

/-- The query at the end of `Emit()` (R76): the next answer is taken; `Stop` sets `Cancelled`, and past the end of the
list the host answers `Continue`. -/
def State.emit (s : State) : State :=
  match s.answers with
  | [] => s
  | .proceed :: rest => { s with answers := rest }
  | .stop :: rest => { s with answers := rest, status := .cancelled }

/-- A micro-step: its assignment, the position moved on (R25), then `Emit()`. -/
def microStep (op : MicroOp) (s : State) : State :=
  State.emit { op s with position := s.position + 1 }

/-- Micro-steps in order; once the run has ended no later one happens (R73, R76: "abandon the current Cycle"). -/
def runMicro : List MicroOp → State → State
  | [], s => s
  | op :: rest, s => if s.status = .running then runMicro rest (microStep op s) else s

/-- The end of `Cycle()` (R74): still `Running`, the machine is at an instruction boundary. -/
def endCycle (s : State) : State :=
  if s.status = .running then { s with position := 0 } else s

/-- The rest of an instruction after its fetch: its micro-steps, then the end of the cycle. -/
def runCycle (ops : List MicroOp) (s : State) : State := endCycle (runMicro ops s)

/-- `status <- Halted` (R87, R106, R107, R113): no micro-step, no query, no register written, and the cycle ends. Only
a `Running` engine executes (R23). -/
def haltRun (reason : HaltReason) (s : State) : State :=
  if s.status = .running then { s with status := .halted reason, position := 0 } else s

/-! ### The assignments -/

/-- `Mem <- PC` (MS1, MS4). -/
def memFromPc : MicroOp := fun s => { s with mem := s.pc }

/-- `PC <- (PC + 1) mod 256` (MS2, MS5; R80). -/
def pcIncrement : MicroOp := fun s => { s with pc := s.pc + 1 }

/-- `Instruction <- MemRead(Mem, 1)` (MS3). -/
def loadInstruction : MicroOp := fun s => { s with instruction := s.memory.read s.mem }

/-- `Mem <- v`. -/
def setMem (v : Byte) : MicroOp := fun s => { s with mem := v }

/-- `A <- v`. -/
def setA (v : Byte) : MicroOp := fun s => { s with a := v }

/-- `B <- v`. -/
def setB (v : Byte) : MicroOp := fun s => { s with b := v }

/-- `PC <- v`. -/
def setPc (v : Byte) : MicroOp := fun s => { s with pc := v }

/-- `A <- MemRead(Mem, 1)`. -/
def loadA : MicroOp := fun s => { s with a := s.memory.read s.mem }

/-- `B <- MemRead(Mem, 1)`. -/
def loadB : MicroOp := fun s => { s with b := s.memory.read s.mem }

/-- `MemWrite(Mem, 1, A)`, the only write to memory (R29, R40). -/
def storeA : MicroOp := fun s => { s with memory := s.memory.write s.mem s.a }

/-- `B <- A` (R99). -/
def bFromA : MicroOp := fun s => { s with b := s.a }

/-- `A <- Sum`. -/
def aFromSum : MicroOp := fun s => { s with a := s.sum }

/-- `Out <- A`, which also adds to the `Out` sequence, repeats included (R105, D17). -/
def outFromA : MicroOp := fun s => { s with out := s.a, outSeq := s.outSeq ++ [s.a] }

/-! ### Fetch (R77, R78) -/

/-- MS1, MS2, MS3 (R77). -/
def fetchOps : List MicroOp := [memFromPc, pcIncrement, loadInstruction]

/-- The fetch of one instruction from a boundary (R77). -/
def fetch (s : State) : State := runMicro fetchOps s

/-- The instruction a fetched state is about to execute (R78): decoded from `Instruction`, with the byte at `PC` as
its operand. Decoding writes nothing, and reading that byte has no effect of its own (R34). -/
def fetchedInstr (s : State) : Instr := decodePair s.params s.instruction (s.memory.read s.pc)

/-- The bytes of a table word at `PC` and after it, with the machine `Running` at an instruction boundary. -/
def placeWord (s : State) (bytes : Byte × Byte) : State :=
  { s with memory := (s.memory.write s.pc bytes.1).write (s.pc + 1) bytes.2, status := .running, position := 0 }

end Sys2Proof.Machine
end

