-- ==== Sys2Proof/Machine/Flags.lean ====
section
/-! DEFINITION. The ALU (R84–R89): the 9-bit intermediate, the two flags, the flagged compute and the refresh. -/

namespace Sys2Proof.Machine

/-- The two flags (R19, R20). -/
structure Flags where
  zero  : Bool
  carry : Bool
deriving DecidableEq, Repr

/-- The 9-bit intermediate `t` of R84: `a + b`, or `a + ~b + 1`, whose `~b` is the one's complement (C1). -/
def aluIntermediate (a b : Byte) (subtract : Bool) : BitVec 9 :=
  if subtract then a.setWidth 9 + (~~~b).setWidth 9 + 1 else a.setWidth 9 + b.setWidth 9

/-- `performArithmetic(a, b, subtract, updateFlags)` (R84): the value, and the flags after it. -/
def performArithmetic (a b : Byte) (subtract updateFlags : Bool) (old : Flags) : Byte × Flags :=
  let t := aluIntermediate a b subtract
  let r := t.setWidth 8
  (r, if updateFlags then { zero := r == 0, carry := t.getLsbD 8 } else old)

/-- `Sum <- performArithmetic(A, B, subtract, T)`: one micro-step that writes `Sum`, `Carry` and `Zero` (R88). -/
def flaggedCompute (subtract : Bool) : MicroOp := fun s =>
  let r := performArithmetic s.a s.b subtract true { zero := s.zero, carry := s.carry }
  { s with sum := r.1, zero := r.2.zero, carry := r.2.carry }

/-- Whether the refresh after a compute subtracts (R89): never under the default `refreshOp`; under `likeCompute`,
where the compute did. -/
def refreshSubtracts (p : Params) (subtract : Bool) : Bool :=
  match p.refreshOp with
  | .add => false
  | .likeCompute => subtract

/-- `Sum <- performArithmetic(A, B, …, F)`: the refresh after a compute, or after a load (`subtract` false). It never
writes a flag (R21, R89). -/
def refreshAfter (subtract : Bool) : MicroOp := fun s =>
  let r := performArithmetic s.a s.b (refreshSubtracts s.params subtract) false { zero := s.zero, carry := s.carry }
  { s with sum := r.1, zero := r.2.zero, carry := r.2.carry }

/-- The last three micro-steps of the six ALU instructions (R94–R99): flagged compute, `A <- Sum`, refresh. -/
def computeIntoA (subtract : Bool) : List MicroOp := [flaggedCompute subtract, aFromSum, refreshAfter subtract]

end Sys2Proof.Machine
end

