-- ==== Sys2Proof/Machine/Operands.lean ====
section
/-! DEFINITION. The operand fetch and the two operand modes (R79, R81, R82). A meaning gets its operand byte from the
decoder; it is the byte `M[(p + 1) mod 256]`, and nothing can write that byte between its decoding and its use (R83;
log entry 7). Machine/Micro.lean states the same machine with every operand read from `M[Mem]` instead. -/

namespace Sys2Proof.Machine

/-- MS4, MS5 (R79): after them `Mem` holds the operand's own address. -/
def operandFetch : List MicroOp := [memFromPc, pcIncrement]

/-- Address mode (R81): MS4, MS5, and MS6, which replaces the operand's address by the operand byte `ea`. The
operating value is then `M[Mem]`. -/
def addressMode (ea : Byte) : List MicroOp := operandFetch ++ [setMem ea]

/-- Immediate/target mode (R82): MS4 and MS5 only. The operating value is the operand byte itself. -/
def immediateMode : List MicroOp := operandFetch

end Sys2Proof.Machine
end

