-- ==== Sys2Proof/Machine/Arithmetic.lean ====
section
/-! DEFINITION. The meanings of ADD, SUB, AEI, SEI, SHL and SLF (R94–R99), each from the state after its MS3. -/

namespace Sys2Proof.Machine

/-- `ADD a` (R94): `B <- M[a]`, then `A <- A + B` with flags, then the refresh. -/
def execAdd (a : Byte) (s : State) : Host.Outcome State Fault Refusal :=
  .next (runCycle (addressMode a ++ loadB :: computeIntoA false) s)

/-- `SUB a` (R95): `B <- M[a]`, then `A <- A - B` with flags, then the refresh. -/
def execSub (a : Byte) (s : State) : Host.Outcome State Fault Refusal :=
  .next (runCycle (addressMode a ++ loadB :: computeIntoA true) s)

/-- `AEI n` (R96): `B <- n`, then `A <- A + B` with flags, then the refresh. -/
def execAei (n : Byte) (s : State) : Host.Outcome State Fault Refusal :=
  .next (runCycle (immediateMode ++ setB n :: computeIntoA false) s)

/-- `SEI n` (R97): `B <- n`, then `A <- A - B` with flags, then the refresh. -/
def execSei (n : Byte) (s : State) : Host.Outcome State Fault Refusal :=
  .next (runCycle (immediateMode ++ setB n :: computeIntoA true) s)

/-- The two loads of `SHL` in the order the parameter `shlOrder` gives (R98, D7). -/
def shlLoads (p : Params) : List MicroOp :=
  match p.shlOrder with
  | .aThenB => [loadA, loadB]
  | .bThenA => [loadB, loadA]

/-- `SHL a` (R98): `A` and `B` both take `M[a]`, then `A <- A + B` with flags, then the refresh. Memory is not
written. -/
def execShl (a : Byte) (s : State) : Host.Outcome State Fault Refusal :=
  .next (runCycle (addressMode a ++ (shlLoads s.params ++ computeIntoA false)) s)

/-- `SLF` (R99): `B <- A`, then `A <- A + B` with flags, then the refresh. No operand is fetched. -/
def execSlf (s : State) : Host.Outcome State Fault Refusal :=
  .next (runCycle (bFromA :: computeIntoA false) s)

end Sys2Proof.Machine
end

