-- ==== Sys2Proof/Machine/Control.lean ====
section
/-! DEFINITION. The meanings of JMP, JC and JZ (R100–R103), each from the state after its MS3. -/

namespace Sys2Proof.Machine

/-- The execute phase of a jump: one micro-step `PC <- t` if it is taken, none otherwise (R101–R103). -/
def jumpIf (taken : Bool) (t : Byte) : List MicroOp := if taken then [setPc t] else []

/-- `JMP t` (R101). -/
def execJmp (t : Byte) (s : State) : Host.Outcome State Fault Refusal :=
  .next (runCycle (immediateMode ++ jumpIf true t) s)

/-- `JC t` (R102): taken iff `Carry`. -/
def execJc (t : Byte) (s : State) : Host.Outcome State Fault Refusal :=
  .next (runCycle (immediateMode ++ jumpIf s.carry t) s)

/-- `JZ t` (R103): taken iff `Zero`. -/
def execJz (t : Byte) (s : State) : Host.Outcome State Fault Refusal :=
  .next (runCycle (immediateMode ++ jumpIf s.zero t) s)

end Sys2Proof.Machine
end

