-- ==== Sys2Proof/Machine/LoadStore.lean ====
section
/-! DEFINITION. The meanings of LDA, STA and LDI (R91–R93), each from the state after its MS3. -/

namespace Sys2Proof.Machine

/-- `LDA a` (R91): `A <- M[a]`, then the refresh. No flag is written. -/
def execLda (a : Byte) (s : State) : Host.Outcome State Fault Refusal :=
  .next (runCycle (addressMode a ++ [loadA, refreshAfter false]) s)

/-- `STA a` (R92): `M[a] <- A`. -/
def execSta (a : Byte) (s : State) : Host.Outcome State Fault Refusal :=
  .next (runCycle (addressMode a ++ [storeA]) s)

/-- `LDI n` (R93): `A <- n`, then the refresh. No flag is written. -/
def execLdi (n : Byte) (s : State) : Host.Outcome State Fault Refusal :=
  .next (runCycle (immediateMode ++ [setA n, refreshAfter false]) s)

end Sys2Proof.Machine
end

