-- ==== Sys2Proof/Machine/Misc.lean ====
section
/-! DEFINITION. The meanings of NOP, OUT, HLT and the undefined opcode (R104–R107), each from the state after its
MS3. -/

namespace Sys2Proof.Machine

/-- `NOP` (R104): no micro-step of its own. -/
def execNop (s : State) : Host.Outcome State Fault Refusal :=
  .next (runCycle [] s)

/-- `OUT` (R105): `Out <- A`. -/
def execOut (s : State) : Host.Outcome State Fault Refusal :=
  .next (runCycle [outFromA] s)

/-- `HLT` (R106): the run is `Halted`. -/
def execHlt (s : State) : Host.Outcome State Fault Refusal :=
  .next (haltRun .hlt s)

/-- The undefined opcode (R107): the run is `Halted`, the reason recorded beside it (U1). -/
def execUndefined (s : State) : Host.Outcome State Fault Refusal :=
  .next (haltRun .undefinedOpcode s)

end Sys2Proof.Machine
end

