-- ==== Sys2Proof/Machine/Dispatch.lean ====
section
/-! DEFINITION. Execution of a decoded instruction, from the state after its MS3 (R74). One arm per row of the table. -/

namespace Sys2Proof.Machine

/-- The instruction's rule (`Execute_m` with its operand fetch, R74), by constructor. -/
def exec (i : Instr) (s : State) : Host.Outcome State Fault Refusal :=
  match i with
  | .nop => Sys2Proof.Machine.execNop s
  | .lda a => Sys2Proof.Machine.execLda a s
  | .add a => Sys2Proof.Machine.execAdd a s
  | .sub a => Sys2Proof.Machine.execSub a s
  | .sta a => Sys2Proof.Machine.execSta a s
  | .ldi n => Sys2Proof.Machine.execLdi n s
  | .jmp t => Sys2Proof.Machine.execJmp t s
  | .jc t => Sys2Proof.Machine.execJc t s
  | .jz t => Sys2Proof.Machine.execJz t s
  | .aei n => Sys2Proof.Machine.execAei n s
  | .sei n => Sys2Proof.Machine.execSei n s
  | .shl a => Sys2Proof.Machine.execShl a s
  | .slf => Sys2Proof.Machine.execSlf s
  | .undefined => Sys2Proof.Machine.execUndefined s
  | .out => Sys2Proof.Machine.execOut s
  | .hlt => Sys2Proof.Machine.execHlt s

end Sys2Proof.Machine
end

