-- ==== Sys2Proof/Machine/Micro.lean ====
section
/-! DEFINITION. The engine one micro-step at a time, as the pseudocode of R74 and of the instruction rules is written:
every operand is read from `M[Mem]` by the micro-step that uses it (R79, R82, R83), and what comes next is known from
`Instruction` and the position alone (R25). This is the manual-mode view of the host (R117, R123). That one `step` is
exactly these micro-steps up to the next boundary is Obligations.StepIsItsMicroSteps. -/

namespace Sys2Proof.Machine

/-- `Mem <- MemRead(Mem, 1)` (MS6, R81). -/
def derefMem : MicroOp := fun s => { s with mem := s.memory.read s.mem }

/-- `PC <- MemRead(Mem, 1)` (R101–R103). -/
def loadPc : MicroOp := fun s => { s with pc := s.memory.read s.mem }

/-- The operand micro-steps of a mnemonic: MS4 and MS5 for the 11 operand-taking ones, MS6 in address mode (R74). -/
def operandOps (m : Mnemonic) : List MicroOp :=
  match m.mode with
  | .noOperand => []
  | .immediate => [memFromPc, pcIncrement]
  | .address => [memFromPc, pcIncrement, derefMem]

/-- `Execute_m`: the micro-steps of the instruction's rule (R91–R106). `JC` and `JZ` have none when not taken; nothing
before their execute phase writes a flag. -/
def executeOps (s : State) : Mnemonic → List MicroOp
  | .nop => []
  | .lda => [loadA, refreshAfter false]
  | .add => [loadB, flaggedCompute false, aFromSum, refreshAfter false]
  | .sub => [loadB, flaggedCompute true, aFromSum, refreshAfter true]
  | .sta => [storeA]
  | .ldi => [loadA, refreshAfter false]
  | .jmp => [loadPc]
  | .jc  => if s.carry then [loadPc] else []
  | .jz  => if s.zero then [loadPc] else []
  | .aei => [loadB, flaggedCompute false, aFromSum, refreshAfter false]
  | .sei => [loadB, flaggedCompute true, aFromSum, refreshAfter true]
  | .shl =>
    match s.params.shlOrder with
    | .aThenB => [loadA, loadB, flaggedCompute false, aFromSum, refreshAfter false]
    | .bThenA => [loadB, loadA, flaggedCompute false, aFromSum, refreshAfter false]
  | .slf => [bFromA, flaggedCompute false, aFromSum, refreshAfter false]
  | .out => [outFromA]
  | .hlt => []

/-- The micro-steps after MS3 of the instruction in `Instruction`; an undefined opcode has none (R107). -/
def decodedOps (s : State) : List MicroOp :=
  match decodeOpcode s.params s.instruction with
  | some m => operandOps m ++ executeOps s m
  | none => []

/-- All the micro-steps of the instruction at `PC`, from an instruction boundary (R74). -/
def cycleOps (s : State) : List MicroOp := fetchOps ++ decodedOps { s with instruction := s.memory.read s.pc }

/-- The micro-step that comes next in a running instruction (R25). Before MS3 the position alone says it. -/
def nextOp (s : State) : Option MicroOp := (fetchOps ++ decodedOps s)[s.position]?

/-- What runs between an `Emit()` answered `Continue` and the next micro-step (R74): after MS3 the decoding, which
halts on `HLT` and on an undefined opcode without a micro-step (R87, R106, R107); after the last micro-step the end
of the cycle. -/
def settle (s : State) : State :=
  if s.position < fetchOps.length then s
  else
    match decodeOpcode s.params s.instruction with
    | none => haltRun .undefinedOpcode s
    | some .hlt => haltRun .hlt s
    | some _ => if s.position < (fetchOps ++ decodedOps s).length then s else endCycle s

/-- One micro-step of a `Running` engine with its host query (R76), and what follows it without one. An engine that is
not `Running` stays as it is (R73).
DESIGN CHOICE (log entry 17): a `Running` state whose position is at or past the end of the instruction in `Instruction`
has no coming micro-step; `micro` ends its cycle there, also where that instruction is `HLT` or an undefined opcode at
position 3 or later. R25 gives no such position and no run from a boundary reaches one, since `settle` has then already
halted or ended the cycle. -/
def micro (s : State) : State :=
  if s.status = .running then
    match nextOp s with
    | some op => settle (microStep op s)
    | none => endCycle s
  else s

/-- Micro-steps until the machine is at a boundary or the run has ended, at most `fuel` and at least one. -/
def finish : Nat → State → State
  | 0, s => s
  | fuel + 1, s =>
    let t := micro s
    if t.status = .running ∧ t.position ≠ 0 then finish fuel t else t

/-- The most micro-steps one instruction has: `SHL`'s 11 (40_engine.md section 7). -/
def longestCycle : Nat := 11

/-- From inside an instruction: the rest of it (R25). -/
def resumeCycle (s : State) : State := finish longestCycle s

end Sys2Proof.Machine
end

