-- ==== Sys2Proof/Machine/Step.lean ====
section
/-! DEFINITION. One step: one instruction cycle of R74 (log entry 11). -/

namespace Sys2Proof.Machine

/-- `Cycle()` (R74) from a boundary: the fetch, and if the host has not stopped it there, the decoded instruction. -/
def cycle (s : State) : Host.Outcome State Fault Refusal :=
  if (fetch s).status = .running then exec (fetchedInstr (fetch s)) (fetch s) else .next (fetch s)

/-- One step. A `Running` engine at a boundary does one cycle; inside an instruction it does the rest of that
instruction (R25; no run that started at a boundary is ever `Running` there between steps). An engine that is `Halted`
or `Cancelled` stays as it is: no further micro-step happens (R73, R112). -/
def step (s : State) : Host.Outcome State Fault Refusal :=
  if s.status = .running then
    if s.position = 0 then cycle s else .next (resumeCycle s)
  else .next s

/-- The state with a table word stored where the next step fetches: at `PC`, with the machine `Running` at a boundary. -/
def State.withFetchWord (s : State) (nbits w : Nat) : State := placeWord s (tableWordBytes nbits w)

end Sys2Proof.Machine
end

