-- ==== Sys2Proof/Machine/Image.lean ====
section
/-! DEFINITION. The persisted image format, its loader, and the boot of a run from it (R69–R72, R119, R125, R128). A
text is a list of characters; a file that is not there is `none`. -/

namespace Sys2Proof.Machine

/-- The loader's errors (R70, R72). -/
inductive LoadError where
  | fileNotFound
  | malformedImage
  | truncatedImage
deriving DecidableEq, Repr

/-- A binary digit as a character. -/
def bitChar (bit : Bool) : Char := if bit then '1' else '0'

/-- A byte in 8-bit binary, most significant bit first (R69; the digit order is G2, log entry 12). -/
def byteDigits (v : Byte) : List Char :=
  [bitChar (v.getLsbD 7), bitChar (v.getLsbD 6), bitChar (v.getLsbD 5), bitChar (v.getLsbD 4),
   bitChar (v.getLsbD 3), bitChar (v.getLsbD 2), bitChar (v.getLsbD 1), bitChar (v.getLsbD 0)]

/-- The separator of R69: space, bar, space. -/
def separator : List Char := [' ', '|', ' ']

/-- Line `i` of the image text, without its newline (R69). -/
def imageLine (i : Nat) (v : Byte) : List Char := byteDigits (BitVec.ofNat 8 i) ++ separator ++ byteDigits v

/-- The lines of bytes from index `i` on, each followed by a newline (R69). -/
def imageTextFrom : Nat → List Byte → List Char
  | _, [] => []
  | i, v :: vs => imageLine i v ++ '\n' :: imageTextFrom (i + 1) vs

/-- The image text of a Code Image (R69). -/
def imageText (image : List Byte) : List Char := imageTextFrom 0 image

/-- The lines of a text: separated by newlines, which belong to no line (R70, D25); a newline at the very end starts no
further line. -/
def splitLines : List Char → List (List Char)
  | [] => []
  | c :: cs =>
    if c = '\n' then [] :: splitLines cs
    else
      match splitLines cs with
      | [] => [[c]]
      | l :: ls => (c :: l) :: ls

/-- A character as a binary digit. -/
def readBit (c : Char) : Option Nat := if c = '0' then some 0 else if c = '1' then some 1 else none

/-- Binary digits, most significant first, onto a value read so far. -/
def readBits : Nat → List Char → Option Nat
  | acc, [] => some acc
  | acc, c :: cs =>
    match readBit c with
    | some d => readBits (2 * acc + d) cs
    | none => none

/-- Line `i` as the loader reads it (R70): 19 characters, binary digits at 0–7 and 11–18, the separator at 8–10, and an
address field equal to `i`. -/
def parseLine (i : Nat) (line : List Char) : Option Byte :=
  if line.length = 19 ∧ (line.drop 8).take 3 = separator then
    match readBits 0 (line.take 8), readBits 0 (line.drop 11) with
    | some address, some v => if address = i then some (BitVec.ofNat 8 v) else none
    | _, _ => none
  else none

/-- The loader over the lines from index `i` on (R70): the first malformed line, or a non-empty line after the 256th,
is `MalformedImage`; fewer than 256 lines, all well formed, is `TruncatedImage`. -/
def loadLines : Nat → List (List Char) → Except LoadError (List Byte)
  | i, [] => if i < memorySize then .error .truncatedImage else .ok []
  | i, line :: rest =>
    if i < memorySize then
      match parseLine i line with
      | none => .error .malformedImage
      | some v =>
        match loadLines (i + 1) rest with
        | .ok vs => .ok (v :: vs)
        | .error e => .error e
    else if line = [] then loadLines (i + 1) rest
    else .error .malformedImage

/-- The loader: a file's text to its 256 bytes, verbatim (R70, R71, R72). -/
def loadImage : Option (List Char) → Except LoadError (List Byte)
  | none => .error .fileNotFound
  | some text => loadLines 0 (splitLines text)

/-- What the loader expects of the next byte (R71). -/
inductive LoaderMode where
  | expectOpcode
  | expectOperand
deriving DecidableEq, Repr

/-- The mode in which each byte of an image is read, from a first one on: the instruction boundaries the loader
reconstructs, from the opcode values alone (R46, R71). Nothing else depends on it: no byte is changed or refused (D3, log entry 22). -/
def loaderModes (p : Params) : LoaderMode → List Byte → List LoaderMode
  | _, [] => []
  | .expectOperand, _ :: rest => .expectOperand :: loaderModes p .expectOpcode rest
  | .expectOpcode, v :: rest =>
    .expectOpcode :: loaderModes p (if isTwoByte p v then .expectOperand else .expectOpcode) rest

/-- Boot (R119, R125, R128): the image is validated, memory is loaded from it, registers and flags take their start
values, and the run starts at address 0. On a loader error nothing runs (R72). -/
def boot (p : Params) (r : ResetRegs) (answers : List HostAnswer) (file : Option (List Char)) :
    Except LoadError State :=
  match loadImage file with
  | .ok image => .ok (State.start p r (Memory.ofImage image) answers)
  | .error e => .error e

end Sys2Proof.Machine
end

