-- ==== Sys2Proof/Machine/Assembler.lean ====
section
/-! DEFINITION. The two-pass assembler (R54–R68): source text to a 256-byte Code Image. No engine rule depends on it
(R4). Where the rules let two errors apply to one text, the order taken is log entry 13; every order refuses the same
texts. -/

namespace Sys2Proof.Machine

/-- A token of a source line (R54). -/
abbrev Token := List Char

/-- The assembler's errors (R67). -/
inductive AsmError where
  | fileNotFound
  | duplicateTag
  | invalidIdentifier
  | missingOperand
  | unexpectedOperand
  | unknownOpcode
  | invalidOptionalOperator
  | missingOptionalArgument
  | outOfMemory
  | imageTooLarge
  /-- the spec's own (D18) -/
  | literalOutOfRange
deriving DecidableEq, Repr

/-! ### Lines and tokens (R54, R55) -/

/-- The whitespace of R54: space, tab, carriage return, vertical tab, form feed (D22). -/
def isBlank (c : Char) : Bool := [32, 9, 13, 11, 12].contains c.toNat

/-- The tokens of a line, given the characters of the current one in reverse. -/
def tokensFrom : List Char → List Char → List Token
  | cur, [] => if cur = [] then [] else [cur.reverse]
  | cur, c :: cs =>
    if isBlank c then (if cur = [] then tokensFrom [] cs else cur.reverse :: tokensFrom [] cs)
    else tokensFrom (c :: cur) cs

/-- The tokens of a source line: the comment from the first `#` is removed, the rest split on whitespace (R54). -/
def tokenize (line : List Char) : List Token := tokensFrom [] (line.takeWhile (· ≠ '#'))

/-- A non-empty source line: at most four tokens (R54). -/
structure SourceLine where
  opcode           : Token
  argument         : Option Token
  optionalOperator : Option Token
  optionalArgument : Option Token
deriving DecidableEq, Repr

/-- The non-empty lines of a source, a fifth token on one being `UnexpectedOperand` (R54, D21). -/
def parseSource : List (List Char) → Except AsmError (List SourceLine)
  | [] => .ok []
  | line :: rest =>
    match tokenize line with
    | [] => parseSource rest
    | o :: more =>
      if 3 < more.length then .error .unexpectedOperand
      else
        match parseSource rest with
        | .ok ls => .ok ({ opcode := o, argument := more[0]?, optionalOperator := more[1]?,
                           optionalArgument := more[2]? } :: ls)
        | .error e => .error e

/-- A character of an identifier: `[A-Za-z0-9_$]` (R55). -/
def isIdentChar (c : Char) : Bool := c.isAlpha || c.isDigit || c == '_' || c == '$'

/-- All characters are digits; the empty token counts as such. -/
def allDigits (t : Token) : Bool := t.all Char.isDigit

/-- An identifier: only identifier characters, and not all digits (R55). -/
def isIdentifier (t : Token) : Bool := t.all isIdentChar && !allDigits t

/-- An unsigned decimal integer (R55). -/
def readDecimal (t : Token) : Option Nat :=
  if t ≠ [] ∧ allDigits t then some (t.foldl (fun n c => 10 * n + (c.toNat - '0'.toNat)) 0) else none

/-- A tag line's name: the opcode token ends in `:` (R56, D23). -/
def tagName (opcode : Token) : Option Token :=
  if opcode.getLast? = some ':' then some opcode.dropLast else none

/-- The spelling of a mnemonic (R57). -/
def Mnemonic.spelling : Mnemonic → Token
  | .nop => ['N', 'O', 'P']
  | .lda => ['L', 'D', 'A']
  | .add => ['A', 'D', 'D']
  | .sub => ['S', 'U', 'B']
  | .sta => ['S', 'T', 'A']
  | .ldi => ['L', 'D', 'I']
  | .jmp => ['J', 'M', 'P']
  | .jc  => ['J', 'C']
  | .jz  => ['J', 'Z']
  | .aei => ['A', 'E', 'I']
  | .sei => ['S', 'E', 'I']
  | .shl => ['S', 'H', 'L']
  | .slf => ['S', 'L', 'F']
  | .out => ['O', 'U', 'T']
  | .hlt => ['H', 'L', 'T']

/-- The mnemonic a token names, case-insensitively (R57). -/
def readMnemonic (t : Token) : Option Mnemonic :=
  Mnemonic.all.find? (fun m => Mnemonic.spelling m == t.map Char.toUpper)

/-! ### Pass 1: tags (R59, R60) -/

/-- Names bound to addresses. -/
abbrev Symbols := List (Token × Nat)

/-- The address a name is bound to; names are case-sensitive (R57, D20). -/
def Symbols.find (names : Symbols) (t : Token) : Option Nat := (names.find? (fun b => b.1 == t)).map Prod.snd

/-- The bytes Pass 1 counts for a line that is no tag line, whatever its mnemonic (R59). -/
def passOneSize (l : SourceLine) : Nat := if l.argument.isSome then 2 else 1

/-- Pass 1 from a cursor on, with the tags found so far (R59). A tag at 256 is `ImageTooLarge` (R60, D24).
DESIGN CHOICE (log entry 13): R59 gives its errors no precedence. A tag line that several apply to is `InvalidIdentifier`
first, then `DuplicateTag`, then `UnexpectedOperand`, then the `ImageTooLarge` of R60; a lone `:`, whose name is empty, is
`InvalidIdentifier`. -/
def passOne : Nat → Symbols → List SourceLine → Except AsmError Symbols
  | _, tags, [] => .ok tags
  | cursor, tags, l :: rest =>
    match tagName l.opcode with
    | none => passOne (cursor + passOneSize l) tags rest
    | some name =>
      if !isIdentifier name then .error .invalidIdentifier
      else if (Symbols.find tags name).isSome then .error .duplicateTag
      else if l.argument.isSome then .error .unexpectedOperand
      else if memorySize ≤ cursor then .error .imageTooLarge
      else passOne cursor (tags ++ [(name, cursor)]) rest

/-! ### Pass 2: emission (R61–R65) -/

/-- What Pass 2 has done so far: the bytes emitted, the variables allocated in order, and the allocator's cursor. -/
structure Emission where
  code      : List Byte
  vars      : Symbols
  cursor    : Nat
deriving DecidableEq, Repr

/-- Pass 2 before the first line: the allocator's cursor is 255 (R64). -/
def Emission.initial : Emission := { code := [], vars := [], cursor := 255 }

/-- Emit one more byte. -/
def Emission.emitByte (e : Emission) (v : Byte) : Emission := { e with code := e.code ++ [v] }

/-- Allocate a variable: its cell is the cursor, which must lie above the emitted length (R64). -/
def Emission.allocate (e : Emission) (name : Token) : Except AsmError (Nat × Emission) :=
  if e.code.length < e.cursor then
    .ok (e.cursor, { e with vars := e.vars ++ [(name, e.cursor)], cursor := e.cursor - 1 })
  else .error .outOfMemory

/-- Operand resolution (R63): a decimal integer is itself, a bound name is its address, an unbound one is allocated. -/
def resolveOperand (tags : Symbols) (e : Emission) (t : Token) : Except AsmError (Nat × Emission) :=
  match readDecimal t with
  | some n => if n ≤ 255 then .ok (n, e) else .error .literalOutOfRange
  | none =>
    match Symbols.find tags t, Symbols.find e.vars t with
    | some addr, _ => .ok (addr, e)
    | none, some addr => .ok (addr, e)
    | none, none => if isIdentifier t then e.allocate t else .error .invalidIdentifier

/-- The operation of an operator token (R65): `+`, `-` or `*`, on unbounded integers. -/
def adjustment (operator : Token) : Option (Int → Int → Int) :=
  if operator = ['+'] then some (fun value n => value + n)
  else if operator = ['-'] then some (fun value n => value - n)
  else if operator = ['*'] then some (fun value n => value * n)
  else none

/-- The optional adjustment of a resolved operand: `(value op n) mod 256` (R65). -/
def adjustOperand (value : Nat) (operator argument : Option Token) : Except AsmError Byte :=
  match operator with
  | none => .ok (BitVec.ofNat 8 value)
  | some op =>
    match adjustment op, argument.bind readDecimal with
    | none, _ => .error .invalidOptionalOperator
    | some _, none => .error .missingOptionalArgument
    | some f, some n => .ok (BitVec.ofInt 8 (f value n))

/-- A literal line: its integer as one byte, verbatim, and no second token (R61). -/
def emitLiteral (e : Emission) (l : SourceLine) (n : Nat) : Except AsmError Emission :=
  if l.argument.isSome then .error .unexpectedOperand
  else if 255 < n then .error .literalOutOfRange
  else .ok (e.emitByte (BitVec.ofNat 8 n))

/-- An instruction line: its opcode byte, then for an operand-taking mnemonic its operand byte (R57, R58, R62).
DESIGN CHOICE (log entry 13): where several errors apply to one line the spec gives no precedence. The mnemonic is looked
at first (`UnknownOpcode`), then the number of operands (`MissingOperand`, `UnexpectedOperand`), then the operand is
resolved (`LiteralOutOfRange`, `InvalidIdentifier`, `OutOfMemory`; R63, R64), and last comes the adjustment
(`InvalidOptionalOperator`, `MissingOptionalArgument`; R65). -/
def emitInstruction (map : OpcodeMap) (tags : Symbols) (e : Emission) (l : SourceLine) : Except AsmError Emission :=
  match readMnemonic l.opcode with
  | none => .error .unknownOpcode
  | some m =>
    match m.takesOperand, l.argument with
    | true, none => .error .missingOperand
    | false, some _ => .error .unexpectedOperand
    | false, none => .ok (e.emitByte (opcodeByte (map.code m)))
    | true, some t =>
      match resolveOperand tags (e.emitByte (opcodeByte (map.code m))) t with
      | .error err => .error err
      | .ok (value, e') =>
        match adjustOperand value l.optionalOperator l.optionalArgument with
        | .error err => .error err
        | .ok v => .ok (e'.emitByte v)

/-- One line of Pass 2 (R56, R61, R62): tag lines are skipped. -/
def emitLine (map : OpcodeMap) (tags : Symbols) (e : Emission) (l : SourceLine) : Except AsmError Emission :=
  match tagName l.opcode with
  | some _ => .ok e
  | none =>
    match readDecimal l.opcode with
    | some n => emitLiteral e l n
    | none => emitInstruction map tags e l

/-- Pass 2 over all lines. -/
def passTwo (map : OpcodeMap) (tags : Symbols) : Emission → List SourceLine → Except AsmError Emission
  | e, [] => .ok e
  | e, l :: rest =>
    match emitLine map tags e l with
    | .ok e' => passTwo map tags e' rest
    | .error err => .error err

/-! ### The whole assembler (R64, R66, R67) -/

/-- An accepted source: its image, tags, variables and emitted length. -/
structure Assembly where
  image      : List Byte
  tags       : Symbols
  vars       : Symbols
  codeLength : Nat
deriving DecidableEq, Repr

/-- The code emitted reaches no variable: no variable exists, or the length is at most the lowest variable address,
which is one above the cursor (R64, D19). -/
def Emission.clear (e : Emission) : Bool := e.vars.isEmpty || decide (e.code.length ≤ e.cursor + 1)

/-- After all lines: the overlap check (R64), the size check, and the zero padding to 256 bytes (R66). -/
def finishAssembly (tags : Symbols) (e : Emission) : Except AsmError Assembly :=
  if !e.clear then .error .outOfMemory
  else if memorySize < e.code.length then .error .imageTooLarge
  else
    .ok { image := e.code ++ List.replicate (memorySize - e.code.length) 0, tags := tags, vars := e.vars,
          codeLength := e.code.length }

/-- The assembler (R54–R68); a missing file is `FileNotFound` (R67). -/
def assemble (map : OpcodeMap) : Option (List Char) → Except AsmError Assembly
  | none => .error .fileNotFound
  | some text =>
    match parseSource (splitLines text) with
    | .error err => .error err
    | .ok lines =>
      match passOne 0 [] lines with
      | .error err => .error err
      | .ok tags =>
        match passTwo map tags Emission.initial lines with
        | .error err => .error err
        | .ok e => finishAssembly tags e

end Sys2Proof.Machine
end

