-- ==== Sys2Proof/Machine/Run.lean ====
section
/-! DEFINITION. Runs and what a host sees of them (R76, R77, R115, R117, R118). The host's policy is the answers the
state carries; a claim over every list of answers is a claim over every host. -/

namespace Sys2Proof.Machine

/-- `state_snapshot` (R118): the complete state of R10. -/
structure Snapshot where
  mem         : Byte
  a           : Byte
  b           : Byte
  sum         : Byte
  instruction : Byte
  pc          : Byte
  out         : Byte
  zero        : Bool
  carry       : Bool
  memory      : Memory
  status      : RunStatus
deriving DecidableEq, Repr

/-- The snapshot of a state (R118, D10). -/
def State.snapshot (s : State) : Snapshot :=
  { mem := s.mem, a := s.a, b := s.b, sum := s.sum, instruction := s.instruction, pc := s.pc, out := s.out,
    zero := s.zero, carry := s.carry, memory := s.memory, status := s.status }

/-- What `Emit()` hands the host in the coming micro-step: the state after its assignment, before the answer (R76).
None once the run has ended: a status change emits nothing (R87). -/
def emitted (s : State) : Option Snapshot :=
  if s.status = .running then (nextOp s).map (fun op => (op s).snapshot) else none

/-- The micro-steps of a completed instruction, from its MS1, with the flags it starts with (the table of
40_engine.md section 7). -/
def microStepCount (carry zero : Bool) : Instr → Nat
  | .nop => 3
  | .lda _ => 8
  | .add _ => 10
  | .sub _ => 10
  | .sta _ => 7
  | .ldi _ => 7
  | .jmp _ => 6
  | .jc _ => if carry then 6 else 5
  | .jz _ => if zero then 6 else 5
  | .aei _ => 9
  | .sei _ => 9
  | .shl _ => 11
  | .slf => 7
  | .undefined => 3
  | .out => 4
  | .hlt => 3

/-- The assignments of a list of micro-steps, one after another, without the host. -/
def assignAll (ops : List MicroOp) (s : State) : State := ops.foldl (fun t op => op t) s

/-- `n` micro-steps. -/
def microRun : Nat → State → State
  | 0, s => s
  | n + 1, s => microRun n (micro s)

/-- The snapshots of the next `n` micro-steps, in order (R115). -/
def snapshots : Nat → State → List Snapshot
  | 0, _ => []
  | n + 1, s => (emitted s).toList ++ snapshots n (micro s)

/-- The number of instructions fetched in the next `n` micro-steps: the MS3s (R77). -/
def fetches : Nat → State → Nat
  | 0, _ => 0
  | n + 1, s => (if s.status = .running ∧ s.position = 2 then 1 else 0) + fetches n (micro s)

/-- The end of a run: the status is not `Running` (R115, D26). -/
abbrev Ended (s : State) : Prop := s.status ≠ .running

/-- A hang (R115, U17): the run never ends. -/
def Hangs (s : State) : Prop := ∀ n, (microRun n s).status = .running

/-- A run's result (R115). -/
structure RunResult where
  status    : RunStatus
  final     : Snapshot
  outSeq    : List Byte
  snapshots : List Snapshot
deriving DecidableEq, Repr

/-- The result after `n` micro-steps, if the run has ended by then (R115). -/
def resultWithin (n : Nat) (s : State) : Option RunResult :=
  let t := microRun n s
  if t.status = .running then none
  else some { status := t.status, final := t.snapshot, outSeq := t.outSeq, snapshots := snapshots n s }

end Sys2Proof.Machine
end

