-- ==== Sys2Proof/Safety.lean ====
section
/-! DEFINITION. What the claims call a sound state, a host that lets an instruction finish, and a normal end. -/

namespace Sys2Proof.Machine

/-- The host answers `Continue` to the next `n` micro-step events. -/
abbrev State.continues (s : State) (n : Nat) : Prop := ∀ x ∈ s.answers.take n, x = HostAnswer.proceed

/-- At an instruction boundary, `Running`. -/
abbrev State.atBoundary (s : State) : Prop := s.status = .running ∧ s.position = 0

/-- The opcode byte at `PC`. -/
abbrev State.opcode (s : State) : Byte := s.memory.read s.pc

/-- The byte after it, the operand byte of a two-byte instruction (R44). -/
abbrev State.operandByte (s : State) : Byte := s.memory.read (s.pc + 1)

/-- The instruction at `PC`. -/
abbrev State.nextInstr (s : State) : Instr := decodePair s.params s.opcode s.operandByte

/-- The host lets the instruction at `PC` finish: it answers `Continue` to each of its micro-steps. -/
abbrev State.instrContinues (s : State) : Prop := s.continues (microStepCount s.carry s.zero s.nextInstr)

/-- The opcode byte at `PC` is one of mnemonic `m` (the Encoding line of its rule): an allowed map (R50), the high
nibble `opcodeMap(m)`, and a low nibble the policy lets through (R45). -/
abbrev State.atOpcode (s : State) (m : Mnemonic) : Prop :=
  s.params.opcodeMap.wf = true ∧ highNibble s.opcode = s.params.opcodeMap.code m ∧
    (s.params.lowNibblePolicy = .ignore ∨ lowNibble s.opcode = 0)

/-- The opcode byte at `PC` has the code no mnemonic has (R107). -/
abbrev State.atVacantCode (s : State) : Prop :=
  s.params.opcodeMap.wf = true ∧ ∀ m ∈ Mnemonic.all, s.params.opcodeMap.code m ≠ highNibble s.opcode

/-- The state after MS1, MS2 and MS3 all answered `Continue` (R77). -/
def State.fetched (s : State) : State :=
  { s with mem := s.pc, pc := s.pc + 1, instruction := s.opcode, position := s.position + 3,
           answers := s.answers.drop 3 }

/-- Two states that differ at most in `Mem`, `B`, `Sum` and `Instruction`. -/
abbrev SameButScratch (s t : State) : Prop :=
  t = { s with mem := t.mem, b := t.b, sum := t.sum, instruction := t.instruction }

/-- The state with other pacing parameters (R7, R117). -/
def State.withPacing (auto : Bool) (hz : Nat) (s : State) : State :=
  { s with params := { s.params with automaticMode := auto, clockRateHz := hz } }

/-- The state with other values of the switches `refreshOp` and `shlOrder` (R7). -/
def State.withSwitches (r : RefreshOp) (o : ShlOrder) (s : State) : State :=
  { s with params := { s.params with refreshOp := r, shlOrder := o } }

/-- What stands beside each status: a `Running` or `Halted` engine is at a boundary; a `Halted` one is as MS3 left it,
its `Instruction` decoding to what halted it (R113); a `Cancelled` one is after one of its instruction's micro-steps
(R114). -/
abbrev State.statusSound (s : State) : Prop :=
  match s.status with
  | .running => s.position = 0
  | .halted .hlt => s.position = 0 ∧ s.pc = s.mem + 1 ∧ decodeOpcode s.params s.instruction = some .hlt
  | .halted .undefinedOpcode => s.position = 0 ∧ s.pc = s.mem + 1 ∧ decodeOpcode s.params s.instruction = none
  | .cancelled => 1 ≤ s.position ∧ s.position ≤ 11

/-- `Out` is the last value of the `Out` sequence, once there is one (R18). -/
abbrev State.outSound (s : State) : Prop := s.outSeq = [] ∨ s.outSeq.getLast? = some s.out

/-- A sound state: canonical memory, and the two consistency conditions. -/
abbrev State.Inv (s : State) : Prop := s.memory.wf ∧ s.statusSound ∧ s.outSound

/-- A normal end: `Halted` by `HLT`, and not by an undefined opcode (R107, U1). -/
abbrev NormalEnd (s : State) : Prop := s.status = .halted .hlt

end Sys2Proof.Machine
end

