-- ==== Sys2Proof/Certificates/Slice0/Obligations.lean ====
section
/-! DEFINITION. The statements for the provers. Each says which rule of the spec it formalises; a clause that rests on
a choice of the spec or of the model names its log entry. -/

open Sys2Proof Sys2Proof.Machine

/-! ### Reset and boot -/

/-- The reset state (R26, R125, R126): `PC` 0, `Running`, at a boundary, and every register 0 and flag false (the
spec's choice D4, log entry 4), every byte of memory the padding byte 0 (the model's choice, log entry 10). -/
def Obligations.ResetStartsRunningAtZero : Prop :=
  State.reset.pc = 0 ∧ State.reset.status = .running ∧ State.reset.position = 0 ∧
  State.reset.mem = 0 ∧ State.reset.a = 0 ∧ State.reset.b = 0 ∧ State.reset.sum = 0 ∧
  State.reset.instruction = 0 ∧ State.reset.out = 0 ∧ State.reset.zero = false ∧ State.reset.carry = false ∧
  State.reset.params = Params.standard ∧ ∀ addr, State.reset.memory.read addr = 0

/-- Boot (R71, R72, R119, R125, R128): for an image the loader accepts a run starts, at address 0 and with the given start
values, and the image is in memory byte for byte (verbatim is the spec's D3, log entry 22); a run starts for no other file,
and on a loader error nothing starts. -/
def Obligations.BootLoadsImageVerbatim : Prop :=
  ∀ (p : Params) (r : ResetRegs) (l : List HostAnswer) (file : Option (List Char)),
    (∀ image, loadImage file = .ok image → ∃ s, boot p r l file = .ok s) ∧
    (∀ s, boot p r l file = .ok s →
      ∃ image, loadImage file = .ok image ∧ image.length = 256 ∧
        (∀ i (h : i < image.length), s.memory.read (BitVec.ofNat 8 i) = image[i]) ∧
        s.memory.wf ∧ s.pc = 0 ∧ s = State.start p r s.memory l) ∧
    (∀ e, loadImage file = .error e → boot p r l file = .error e)

/-! ### Encoding -/

/-- Decoding an encoded instruction gives it back with the bytes after it, for every map R50 allows, both low-nibble
policies, and every instruction with every operand (R44, R46, R49, R50). -/
def Obligations.DecodeEncodeRoundTrip : Prop :=
  ∀ (p : Params), p.opcodeMap.wf = true → ∀ (i : Instr) (rest : List Byte),
    decode p (encode p.opcodeMap i ++ rest) = .ok (i, rest)

/-- Bytes whose opcode byte has low nibble 0, as the assembler writes it (R44, R62), are the encoding of what they
decode to. -/
def Obligations.EncodeDecodeRoundTrip : Prop :=
  ∀ (p : Params), p.opcodeMap.wf = true → ∀ (opcode : Byte) (more rest : List Byte) (i : Instr),
    lowNibble opcode = 0 → decode p (opcode :: more) = .ok (i, rest) →
    opcode :: more = encode p.opcodeMap i ++ rest

/-- R50: under every allowed map exactly one code is the image of no mnemonic; it is the undefined code. -/
def Obligations.ExactlyOneVacantCode : Prop :=
  ∀ map : OpcodeMap, map.wf = true →
    (∀ m, map.code m ≠ map.vacant) ∧ ∀ c, (∀ m, map.code m ≠ c) → c = map.vacant

/-- The low nibble (R45, D2, U2; log entry 3): under `ignore` opcode bytes with one high nibble decode alike; under
`haltIfNonzero` a nonzero low nibble is an undefined opcode. -/
def Obligations.LowNibbleIgnoredOrHalts : Prop :=
  ∀ (p : Params) (opcode operand : Byte),
    (p.lowNibblePolicy = .ignore → ∀ opcode', highNibble opcode' = highNibble opcode →
      decodePair p opcode' operand = decodePair p opcode operand ∧ isTwoByte p opcode' = isTwoByte p opcode) ∧
    (p.lowNibblePolicy = .haltIfNonzero → lowNibble opcode ≠ 0 →
      decodePair p opcode operand = .undefined ∧ isTwoByte p opcode = false)

/-- Words written out from R49's table (the default map, D1; log entry 2) decode to their instructions; the last one,
`0xFF`, is `HLT` with a nonzero low nibble, which the default policy ignores (R45, D2; log entry 3). -/
def Obligations.TableWordsDecode : Prop :=
  decodeTableWord 8 0x00 = some .nop ∧ decodeTableWord 16 0x8010 = some (.lda 0x80) ∧
  decodeTableWord 16 0x2A50 = some (.ldi 0x2A) ∧ decodeTableWord 16 0x4060 = some (.jmp 0x40) ∧
  decodeTableWord 16 0x01A0 = some (.sei 1) ∧ decodeTableWord 8 0xC0 = some .slf ∧
  decodeTableWord 8 0xD0 = some .undefined ∧ decodeTableWord 8 0xE0 = some .out ∧
  decodeTableWord 8 0xFF = some .hlt

/-- R46, R53: the opcode alone fixes the length. Two bytes or more always decode, and what is left is what follows the
instruction's length; the length is 2 exactly for the 11 operand-taking mnemonics. -/
def Obligations.LengthFixedByOpcode : Prop :=
  ∀ (p : Params) (opcode operand : Byte) (rest : List Byte),
    decode p (opcode :: operand :: rest) =
      .ok (decodePair p opcode operand, (opcode :: operand :: rest).drop (decodePair p opcode operand).length) ∧
    ((decodePair p opcode operand).length = 2 ↔
      ∃ m ∈ [Mnemonic.lda, .add, .sub, .sta, .ldi, .jmp, .jc, .jz, .aei, .sei, .shl],
        decodeOpcode p opcode = some m) ∧
    ((decodePair p opcode operand).length = 2 ∨ (decodePair p opcode operand).length = 1)

/-! ### The ALU -/

/-- R85, for all bytes: the exact results and flags of addition and subtraction. -/
def Obligations.AluResultsExact : Prop :=
  ∀ (a b : Byte) (old : Flags),
    (performArithmetic a b false true old).1.toNat = (a.toNat + b.toNat) % 256 ∧
    (performArithmetic a b false true old).2.carry = decide (256 ≤ a.toNat + b.toNat) ∧
    (performArithmetic a b false true old).2.zero = decide ((performArithmetic a b false true old).1 = 0) ∧
    ((performArithmetic a b true true old).1.toNat : Int) = ((a.toNat : Int) - (b.toNat : Int)) % 256 ∧
    (performArithmetic a b true true old).2.carry = decide (b.toNat ≤ a.toNat) ∧
    (performArithmetic a b true true old).2.zero = decide ((performArithmetic a b true true old).1 = 0) ∧
    ((performArithmetic a b true true old).1 = 0 ↔ a = b) ∧
    (((performArithmetic a b false true old).1 = 0 ∧ (performArithmetic a b false true old).2.carry = true) ↔
      a.toNat + b.toNat = 256)

/-- R89, R21: a refresh writes `Sum` alone, an addition under the default `refreshOp` whatever the compute before it
(D5, log entry 5), and under `likeCompute` the compute's own operation. -/
def Obligations.RefreshWritesSumOnly : Prop :=
  ∀ (sub : Bool) (s : State),
    refreshAfter sub s = { s with sum := (refreshAfter sub s).sum } ∧
    (s.params.refreshOp = .add → (refreshAfter sub s).sum = s.a + s.b) ∧
    (s.params.refreshOp = .likeCompute → (refreshAfter sub s).sum = if sub then s.a - s.b else s.a + s.b)

/-! ### The meanings: each completes with exactly this state when the host lets it -/

/-- LDA and LDI (R91, R93). -/
def Obligations.LoadsComplete : Prop :=
  ∀ (s : State) (x : Byte), s.status = .running →
    (s.continues 5 →
      exec (.lda x) s =
        .next { s with mem := x, pc := s.pc + 1, a := s.memory.read x, sum := s.memory.read x + s.b, position := 0,
                       answers := s.answers.drop 5 }) ∧
    (s.continues 4 →
      exec (.ldi x) s =
        .next { s with mem := s.pc, pc := s.pc + 1, a := x, sum := x + s.b, position := 0,
                       answers := s.answers.drop 4 })

/-- STA (R92): the byte `A` is at address `x` and every other byte is as before. -/
def Obligations.StoreCompletes : Prop :=
  ∀ (s : State) (x : Byte), s.status = .running → s.memory.wf → s.continues 4 →
    ∃ t, exec (.sta x) s = .next t ∧
      t = { s with mem := x, pc := s.pc + 1, memory := t.memory, position := 0, answers := s.answers.drop 4 } ∧
      ∀ addr, t.memory.read addr = if addr = x then s.a else s.memory.read addr

/-- ADD and SUB (R94, R95). The `Sum` that SUB leaves is `old A` under the default `refreshOp` (D5, log entry 5). -/
def Obligations.MemoryArithmeticCompletes : Prop :=
  ∀ (s : State) (x : Byte), s.status = .running → s.continues 7 →
    exec (.add x) s =
      .next { s with mem := x, pc := s.pc + 1, b := s.memory.read x, a := s.a + s.memory.read x,
                     sum := s.a + s.memory.read x + s.memory.read x,
                     zero := decide (s.a + s.memory.read x = 0),
                     carry := decide (256 ≤ s.a.toNat + (s.memory.read x).toNat),
                     position := 0, answers := s.answers.drop 7 } ∧
    exec (.sub x) s =
      .next { s with mem := x, pc := s.pc + 1, b := s.memory.read x, a := s.a - s.memory.read x,
                     sum := (match s.params.refreshOp with
                       | .add => s.a
                       | .likeCompute => s.a - s.memory.read x - s.memory.read x),
                     zero := decide (s.a = s.memory.read x),
                     carry := decide ((s.memory.read x).toNat ≤ s.a.toNat),
                     position := 0, answers := s.answers.drop 7 }

/-- AEI and SEI (R96, R97). The `Sum` that SEI leaves is `old A` under the default `refreshOp` (D5, log entry 5). -/
def Obligations.ImmediateArithmeticCompletes : Prop :=
  ∀ (s : State) (n : Byte), s.status = .running → s.continues 6 →
    exec (.aei n) s =
      .next { s with mem := s.pc, pc := s.pc + 1, b := n, a := s.a + n, sum := s.a + n + n,
                     zero := decide (s.a + n = 0), carry := decide (256 ≤ s.a.toNat + n.toNat),
                     position := 0, answers := s.answers.drop 6 } ∧
    exec (.sei n) s =
      .next { s with mem := s.pc, pc := s.pc + 1, b := n, a := s.a - n,
                     sum := (match s.params.refreshOp with
                       | .add => s.a
                       | .likeCompute => s.a - n - n),
                     zero := decide (s.a = n), carry := decide (n.toNat ≤ s.a.toNat),
                     position := 0, answers := s.answers.drop 6 }

/-- SHL and SLF (R98, R99): the doubled value, its top bit in `Carry`; SHL discards the old `A`, and its result is the
same in both orders of its loads (D7, log entry 6). -/
def Obligations.ShiftsComplete : Prop :=
  ∀ (s : State), s.status = .running →
    (∀ x : Byte, s.continues 8 →
      exec (.shl x) s =
        .next { s with mem := x, pc := s.pc + 1, b := s.memory.read x, a := 2 * s.memory.read x,
                       sum := 3 * s.memory.read x, zero := decide ((s.memory.read x).extractLsb' 0 7 = 0),
                       carry := (s.memory.read x).getLsbD 7, position := 0, answers := s.answers.drop 8 }) ∧
    (s.continues 4 →
      exec .slf s =
        .next { s with b := s.a, a := 2 * s.a, sum := 3 * s.a, zero := decide (s.a.extractLsb' 0 7 = 0),
                       carry := s.a.getLsbD 7, position := 0, answers := s.answers.drop 4 })

/-- JMP, JC and JZ (R100–R103); a jump not taken has one micro-step fewer, and asks that much less of the host. -/
def Obligations.JumpsComplete : Prop :=
  ∀ (s : State) (x : Byte), s.status = .running →
    (s.continues 3 →
      exec (.jmp x) s = .next { s with mem := s.pc, pc := x, position := 0, answers := s.answers.drop 3 }) ∧
    (s.continues (if s.carry then 3 else 2) →
      exec (.jc x) s =
        .next { s with mem := s.pc, pc := if s.carry then x else s.pc + 1, position := 0,
                       answers := s.answers.drop (if s.carry then 3 else 2) }) ∧
    (s.continues (if s.zero then 3 else 2) →
      exec (.jz x) s =
        .next { s with mem := s.pc, pc := if s.zero then x else s.pc + 1, position := 0,
                       answers := s.answers.drop (if s.zero then 3 else 2) })

/-- NOP and OUT (R104, R105); the `Out` sequence is D17, log entry 15. -/
def Obligations.NopAndOutComplete : Prop :=
  ∀ (s : State), s.status = .running →
    exec .nop s = .next { s with position := 0 } ∧
    (s.continues 1 →
      exec .out s =
        .next { s with out := s.a, outSeq := s.outSeq ++ [s.a], position := 0, answers := s.answers.drop 1 })

/-- HLT and the undefined opcode (R87, R106, R107): the status changes, with its reason beside it (U1, log entry 14);
no register, flag or byte does, and the host is not asked. -/
def Obligations.HaltsComplete : Prop :=
  ∀ (s : State), s.status = .running →
    exec .hlt s = .next { s with status := .halted .hlt, position := 0 } ∧
    exec .undefined s = .next { s with status := .halted .undefinedOpcode, position := 0 }

/-! ### Frames: what no outcome of a meaning changes, a run stopped by the host included -/

/-- LDA and LDI write `A` and `Sum`, and `Mem` and `PC` by their operand fetch. -/
def Obligations.LoadFrame : Prop :=
  ∀ (s t : State) (x : Byte), exec (.lda x) s = .next t ∨ exec (.ldi x) s = .next t →
    t.b = s.b ∧ t.instruction = s.instruction ∧ t.out = s.out ∧ t.zero = s.zero ∧ t.carry = s.carry ∧
    t.outSeq = s.outSeq ∧ t.params = s.params ∧ ∀ addr, t.memory.read addr = s.memory.read addr

/-- ADD, SUB, AEI, SEI, SHL and SLF write `A`, `B`, `Sum` and both flags, and all but SLF write `Mem` and `PC` by their
operand fetch. -/
def Obligations.ArithmeticFrame : Prop :=
  ∀ (s t : State) (i : Instr) (x : Byte),
    i = .add x ∨ i = .sub x ∨ i = .aei x ∨ i = .sei x ∨ i = .shl x ∨ i = .slf → exec i s = .next t →
    t.instruction = s.instruction ∧ t.out = s.out ∧ t.outSeq = s.outSeq ∧ t.params = s.params ∧
    (∀ addr, t.memory.read addr = s.memory.read addr) ∧ (i = .slf → t.mem = s.mem ∧ t.pc = s.pc)

/-- STA writes one byte, at its operand's address, and `Mem` and `PC` by its operand fetch. -/
def Obligations.StoreFrame : Prop :=
  ∀ (s t : State) (x : Byte), exec (.sta x) s = .next t →
    t.a = s.a ∧ t.b = s.b ∧ t.sum = s.sum ∧ t.instruction = s.instruction ∧ t.out = s.out ∧ t.zero = s.zero ∧
    t.carry = s.carry ∧ t.outSeq = s.outSeq ∧ t.params = s.params ∧
    ∀ addr, addr ≠ x → t.memory.read addr = s.memory.read addr

/-- JMP, JC and JZ write `Mem` and `PC` alone (R100). -/
def Obligations.JumpFrame : Prop :=
  ∀ (s t : State) (i : Instr) (x : Byte), i = .jmp x ∨ i = .jc x ∨ i = .jz x → exec i s = .next t →
    t.a = s.a ∧ t.b = s.b ∧ t.sum = s.sum ∧ t.instruction = s.instruction ∧ t.out = s.out ∧ t.zero = s.zero ∧
    t.carry = s.carry ∧ t.outSeq = s.outSeq ∧ t.params = s.params ∧ ∀ addr, t.memory.read addr = s.memory.read addr

/-- NOP, OUT, HLT and the undefined opcode write no register but `Out`, which only OUT writes. -/
def Obligations.OneByteFrame : Prop :=
  ∀ (s t : State) (i : Instr), i = .nop ∨ i = .out ∨ i = .hlt ∨ i = .undefined → exec i s = .next t →
    t.mem = s.mem ∧ t.a = s.a ∧ t.b = s.b ∧ t.sum = s.sum ∧ t.instruction = s.instruction ∧ t.pc = s.pc ∧
    t.zero = s.zero ∧ t.carry = s.carry ∧ t.params = s.params ∧
    (∀ addr, t.memory.read addr = s.memory.read addr) ∧ (i ≠ .out → t.out = s.out ∧ t.outSeq = s.outSeq)

/-! ### Whole cycles, from the instruction's bytes in memory -/

/-- R91: `LDA a` from its bytes, eight micro-steps. -/
def Obligations.LdaCycle : Prop :=
  ∀ s : State, s.atBoundary → s.atOpcode .lda → s.continues 8 →
    step s =
      .next { s with mem := s.operandByte, pc := s.pc + 2, instruction := s.opcode,
                     a := s.memory.read s.operandByte, sum := s.memory.read s.operandByte + s.b,
                     answers := s.answers.drop 8 }

/-- R92: `STA a` from its bytes, seven micro-steps; the byte is at `a`, and every other byte, code included, is as
before. -/
def Obligations.StaCycle : Prop :=
  ∀ s : State, s.atBoundary → s.memory.wf → s.atOpcode .sta → s.continues 7 →
    ∃ t, step s = .next t ∧
      t = { s with mem := s.operandByte, pc := s.pc + 2, instruction := s.opcode, memory := t.memory,
                   answers := s.answers.drop 7 } ∧
      ∀ addr, t.memory.read addr = if addr = s.operandByte then s.a else s.memory.read addr

/-- R93: `LDI n` from its bytes, seven micro-steps. -/
def Obligations.LdiCycle : Prop :=
  ∀ s : State, s.atBoundary → s.atOpcode .ldi → s.continues 7 →
    step s =
      .next { s with mem := s.pc + 1, pc := s.pc + 2, instruction := s.opcode, a := s.operandByte,
                     sum := s.operandByte + s.b, answers := s.answers.drop 7 }

/-- R94: `ADD a` from its bytes, ten micro-steps. -/
def Obligations.AddCycle : Prop :=
  ∀ s : State, s.atBoundary → s.atOpcode .add → s.continues 10 →
    let m := s.memory.read s.operandByte
    step s =
      .next { s with mem := s.operandByte, pc := s.pc + 2, instruction := s.opcode, a := s.a + m, b := m,
                     sum := s.a + 2 * m, carry := decide (256 ≤ s.a.toNat + m.toNat),
                     zero := decide (s.a + m = 0), answers := s.answers.drop 10 }

/-- R95, R97, R98: `SUB a`, `SEI n` and `SHL a` from their bytes under the default switches (D5, D7; log entries 5
and 6). -/
def Obligations.SubSeiShlCycles : Prop :=
  ∀ s : State, s.atBoundary → s.params.refreshOp = .add → s.params.shlOrder = .aThenB →
    let m := s.memory.read s.operandByte
    let n := s.operandByte
    (s.atOpcode .sub → s.continues 10 →
      step s =
        .next { s with mem := n, pc := s.pc + 2, instruction := s.opcode, a := s.a - m, b := m, sum := s.a,
                       carry := decide (m.toNat ≤ s.a.toNat), zero := decide (s.a = m),
                       answers := s.answers.drop 10 }) ∧
    (s.atOpcode .sei → s.continues 9 →
      step s =
        .next { s with mem := s.pc + 1, pc := s.pc + 2, instruction := s.opcode, a := s.a - n, b := n, sum := s.a,
                       carry := decide (n.toNat ≤ s.a.toNat), zero := decide (s.a = n),
                       answers := s.answers.drop 9 }) ∧
    (s.atOpcode .shl → s.continues 11 →
      step s =
        .next { s with mem := n, pc := s.pc + 2, instruction := s.opcode, a := 2 * m, b := m, sum := 3 * m,
                       carry := m.getLsbD 7, zero := decide (m.extractLsb' 0 7 = 0),
                       answers := s.answers.drop 11 })

/-- R96: `AEI n` from its bytes, nine micro-steps. -/
def Obligations.AeiCycle : Prop :=
  ∀ s : State, s.atBoundary → s.atOpcode .aei → s.continues 9 →
    let n := s.operandByte
    step s =
      .next { s with mem := s.pc + 1, pc := s.pc + 2, instruction := s.opcode, a := s.a + n, b := n,
                     sum := s.a + n + n, carry := decide (256 ≤ s.a.toNat + n.toNat),
                     zero := decide (s.a + n = 0), answers := s.answers.drop 9 }

/-- R99: `SLF` from its byte, seven micro-steps. -/
def Obligations.SlfCycle : Prop :=
  ∀ s : State, s.atBoundary → s.atOpcode .slf → s.continues 7 →
    step s =
      .next { s with mem := s.pc, pc := s.pc + 1, instruction := s.opcode, a := 2 * s.a, b := s.a, sum := 3 * s.a,
                     carry := s.a.getLsbD 7, zero := decide (s.a.extractLsb' 0 7 = 0),
                     answers := s.answers.drop 7 }

/-- R101–R103: the jumps from their bytes; six micro-steps taken, five not taken, and the host lets that many pass. -/
def Obligations.JumpCycles : Prop :=
  ∀ s : State, s.atBoundary →
    (s.atOpcode .jmp → s.continues 6 →
      step s =
        .next { s with mem := s.pc + 1, pc := s.operandByte, instruction := s.opcode,
                       answers := s.answers.drop 6 }) ∧
    (s.atOpcode .jc → s.continues (if s.carry then 6 else 5) →
      step s =
        .next { s with mem := s.pc + 1, pc := if s.carry then s.operandByte else s.pc + 2, instruction := s.opcode,
                       answers := s.answers.drop (if s.carry then 6 else 5) }) ∧
    (s.atOpcode .jz → s.continues (if s.zero then 6 else 5) →
      step s =
        .next { s with mem := s.pc + 1, pc := if s.zero then s.operandByte else s.pc + 2, instruction := s.opcode,
                       answers := s.answers.drop (if s.zero then 6 else 5) })

/-- R104, R105: `NOP` from its byte, three micro-steps, and `OUT` from its byte, four; each `OUT` adds to the `Out`
sequence (D17, log entry 15). -/
def Obligations.NopOutCycles : Prop :=
  ∀ s : State, s.atBoundary →
    (s.atOpcode .nop → s.continues 3 →
      step s =
        .next { s with mem := s.pc, pc := s.pc + 1, instruction := s.opcode, answers := s.answers.drop 3 }) ∧
    (s.atOpcode .out → s.continues 4 →
      step s =
        .next { s with mem := s.pc, pc := s.pc + 1, instruction := s.opcode, out := s.a,
                       outSeq := s.outSeq ++ [s.a], answers := s.answers.drop 4 })

/-- R106, R107: `HLT` and an undefined opcode from their byte, three micro-steps: `Halted` with its reason (U1, log entry
14), the state after MS3, and no step leads out of it. -/
def Obligations.HaltCycles : Prop :=
  ∀ s : State, s.atBoundary → s.continues 3 → ∀ reason,
    (reason = HaltReason.hlt ∧ s.atOpcode .hlt) ∨ (reason = HaltReason.undefinedOpcode ∧ s.atVacantCode) →
    ∃ t, step s = .next t ∧ step t = .next t ∧
      t = { s with mem := s.pc, pc := s.pc + 1, instruction := s.opcode, status := .halted reason,
                   answers := s.answers.drop 3 }

/-! ### The step -/

/-- R74, R77, R78: when the bytes at `PC` decode to `i`, a step of a `Running` engine at a boundary is the fetch and
then `i`. -/
def Obligations.StepRunsDecodedInstruction : Prop :=
  ∀ (s : State) (i : Instr) (rest : List Byte), s.atBoundary → s.continues 3 →
    decode s.params [s.opcode, s.operandByte] = .ok (i, rest) → step s = exec i s.fetched

/-- The refinement (R25, R74, R75, R82, R83): one step is the micro-steps of the literal pseudocode, each operand read
from `M[Mem]` when it is used, up to the next boundary or the end of the run. For every state. -/
def Obligations.StepIsItsMicroSteps : Prop :=
  ∀ s : State, step s = .next (finish longestCycle s)

/-- R76, R110, R111, R114 (D9, log entry 21; position, log entry 17): a `Stop` at the micro-step `k + 1` of any
instruction leaves the machine with exactly the assignments up to that one done, `Cancelled`, at that position. Which
assignments are micro-steps, and so which partial states there are, assumes the spec's granularity D6 (log entry 16). -/
def Obligations.StopLandsAfterAnyMicroStep : Prop :=
  ∀ (s : State) (k : Nat) (rest : List HostAnswer), s.atBoundary → k < (cycleOps s).length →
    s.answers = List.replicate k .proceed ++ .stop :: rest →
    step s =
      .next { assignAll ((cycleOps s).take (k + 1)) s with
                position := k + 1, answers := rest, status := .cancelled }

/-- R73: a `Running` engine at a boundary does the instruction cycle; one that is `Halted` or `Cancelled` does no
micro-step, emits nothing, and stays as it is. -/
def Obligations.EndedRunDoesNothing : Prop :=
  ∀ s : State,
    (s.atBoundary → step s = cycle s) ∧
    (s.status ≠ .running → step s = .next s ∧ micro s = s ∧ emitted s = none ∧ ∀ n, snapshots n s = [])

/-- The invariant: canonical memory, the status with what stands beside it (R113, R114), `Out` the last value put out
(R18). Every step keeps it. -/
def Obligations.StepKeepsInvariant : Prop :=
  ∀ s t : State, s.Inv → step s = .next t → t.Inv

/-- The invariant holds at reset, and of every start state whose memory is canonical. -/
def Obligations.InvariantAtReset : Prop :=
  State.reset.Inv ∧ ∀ (p : Params) (r : ResetRegs) (m : Memory) (l : List HostAnswer), m.wf → (State.start p r m l).Inv

/-- R23, R113, R114: only `Stop` leads to `Cancelled`, only `HLT` and an undefined opcode to `Halted`, each with its
reason. For every state, and for a step that finds the status already there. -/
def Obligations.OnlyTheseEventsEndARun : Prop :=
  ∀ s t : State, step s = .next t →
    (t.status = .cancelled → s.status = .cancelled ∨ .stop ∈ s.answers) ∧
    (t.status = .halted .hlt →
      s.status = .halted .hlt ∨ (s.status = .running ∧ decodeOpcode t.params t.instruction = some .hlt)) ∧
    (t.status = .halted .undefinedOpcode →
      s.status = .halted .undefinedOpcode ∨ (s.status = .running ∧ decodeOpcode t.params t.instruction = none))

/-! ### Whole-machine rules -/

/-- R29, R40, R43: `STA` is the only instruction that writes memory, and it writes one byte, at its operand's address. -/
def Obligations.OnlyStaWritesMemory : Prop :=
  ∀ s t : State, s.atBoundary → step s = .next t →
    ((∀ x, s.nextInstr ≠ .sta x) → t.memory = s.memory) ∧
    (∀ x, s.nextInstr = .sta x → ∀ addr, addr ≠ x → t.memory.read addr = s.memory.read addr)

/-- R21: the flags change only in a step of one of the six ALU instructions; there only the flagged compute writes
them, it writes both, whatever they held, and a refresh writes neither. -/
def Obligations.FlagsWrittenOnlyByFlaggedCompute : Prop :=
  (∀ s t : State, s.atBoundary → step s = .next t →
    (∀ m ∈ [Mnemonic.add, .sub, .aei, .sei, .shl, .slf], s.nextInstr.mnemonic ≠ some m) →
    t.zero = s.zero ∧ t.carry = s.carry) ∧
  (∀ (s : State) (op : MicroOp), nextOp s = some op →
    (∃ sub, op = flaggedCompute sub) ∨ ∀ u : State, (op u).zero = u.zero ∧ (op u).carry = u.carry) ∧
  (∀ (sub z c : Bool) (s : State),
    (flaggedCompute sub { s with zero := z, carry := c }).zero = (flaggedCompute sub s).zero ∧
    (flaggedCompute sub { s with zero := z, carry := c }).carry = (flaggedCompute sub s).carry) ∧
  (∀ (sub : Bool) (s : State), (refreshAfter sub s).zero = s.zero ∧ (refreshAfter sub s).carry = s.carry)

/-- R18: only `OUT` writes `Out`, with `A`, and each `OUT` adds that value to the `Out` sequence (D17, log entry 15). -/
def Obligations.OutWrittenOnlyByOut : Prop :=
  ∀ s t : State, s.atBoundary → step s = .next t →
    (s.nextInstr ≠ .out → t.out = s.out ∧ t.outSeq = s.outSeq) ∧
    (s.nextInstr = .out → s.continues 4 → t.out = s.a ∧ t.outSeq = s.outSeq ++ [s.a])

/-- R17, R80, R100: after a completed instruction `PC` is the target of a taken jump, and otherwise is past the
instruction's bytes, wrapping. -/
def Obligations.PcAfterInstruction : Prop :=
  ∀ s t : State, s.atBoundary → s.instrContinues → step s = .next t →
    (∀ x, s.nextInstr = .jmp x ∨ (s.nextInstr = .jc x ∧ s.carry = true) ∨ (s.nextInstr = .jz x ∧ s.zero = true) →
      t.pc = x) ∧
    ((∀ x, s.nextInstr ≠ .jmp x ∧ (s.nextInstr = .jc x → s.carry = false) ∧ (s.nextInstr = .jz x → s.zero = false)) →
      t.pc = s.pc + BitVec.ofNat 8 s.nextInstr.length)

/-- The micro-step totals of 40_engine.md section 7 (granularity D6, log entry 16): one answer is taken for each
micro-step of a completed instruction. -/
def Obligations.MicroStepTotals : Prop :=
  ∀ s t : State, s.atBoundary → s.instrContinues → step s = .next t →
    t.answers = s.answers.drop (microStepCount s.carry s.zero s.nextInstr)

/-- R41, R131: right after a `STA` its address reads the byte stored, and that byte is the opcode of the very next fetch
when it was stored there. Later accesses are StoreSeenByLaterAccesses. -/
def Obligations.StoreSeenByNextFetch : Prop :=
  ∀ (s : State) (x : Byte), s.atBoundary → s.memory.wf → s.continues 10 → s.nextInstr = .sta x →
    ∃ t, step s = .next t ∧ t.atBoundary ∧ t.memory.read x = s.a ∧
      (x = s.pc + 2 → (fetch t).instruction = s.a ∧ t.opcode = s.a)

/-- R38, R41, R131: a byte stored by `STA` is what every later access of its address reads, as long as no other `STA`
stores there: in every state `u` that any number of steps leads to, memory reads it; the next fetch takes it as its opcode
if it lies at `PC`; `LDI` takes it as its operand if it lies there; and `LDA` of its address loads it. The store itself
may be into the very next instruction (`u` is then `t`). -/
def Obligations.StoreSeenByLaterAccesses : Prop :=
  ∀ (s : State) (x : Byte), s.atBoundary → s.memory.wf → s.continues 7 → s.nextInstr = .sta x →
    ∃ t, step s = .next t ∧ t.atBoundary ∧ t.answers = s.answers.drop 7 ∧
      ∀ (k : Nat) (u : State), core.run k t = .next u →
        (∀ j < k, ∀ v, core.run j t = .next v → v.status = .running → v.nextInstr ≠ .sta x) →
        u.memory.read x = s.a ∧
        (u.atBoundary → u.continues 3 → x = u.pc → (fetch u).instruction = s.a) ∧
        (u.atBoundary → u.continues 7 → x = u.pc + 1 → u.atOpcode .ldi → ∃ w, step u = .next w ∧ w.a = s.a) ∧
        (u.atBoundary → u.continues 8 → x = u.operandByte → u.atOpcode .lda → ∃ w, step u = .next w ∧ w.a = s.a)

/-- R13, R14, R27: what `Mem`, `B`, `Sum` and `Instruction` hold at a boundary never reaches anything else, over any
number of steps and under any host. -/
def Obligations.ScratchRegistersNeverLeak : Prop :=
  ∀ (k : Nat) (s₁ s₂ t₁ t₂ : State), s₁.atBoundary → SameButScratch s₁ s₂ →
    core.run k s₁ = .next t₁ → core.run k s₂ = .next t₂ → SameButScratch t₁ t₂

/-- R117, R135, D16 (log entry 9): the pacing parameters change no result, in any state. -/
def Obligations.PacingChangesNoResult : Prop :=
  ∀ (s t : State) (auto : Bool) (hz : Nat), step s = .next t →
    step (s.withPacing auto hz) = .next (t.withPacing auto hz)

/-- R7, R14, R89, R98 (D5, D7; log entries 5 and 6): the switches `refreshOp` and `shlOrder` change nothing of a
completed instruction but the `Sum` that SUB and SEI leave. -/
def Obligations.SwitchesChangeOnlySum : Prop :=
  ∀ (s t t' : State) (r : RefreshOp) (o : ShlOrder), s.atBoundary → s.instrContinues → step s = .next t →
    step (s.withSwitches r o) = .next t' →
    t' = { t with sum := t'.sum, params := t'.params } ∧
    ((∀ x, s.nextInstr ≠ .sub x ∧ s.nextInstr ≠ .sei x) → t'.sum = t.sum)

/-- R101, R115: a jump to itself hangs under a host that always answers `Continue`. -/
def Obligations.JumpToSelfHangs : Prop :=
  ∀ s : State, s.atBoundary → s.answers = [] → s.atOpcode .jmp → s.operandByte = s.pc → Hangs s

/-- R76, R87, R118 (D10; log entry 18): whatever the host then answers, what a micro-step emits is the snapshot of the
state after its assignment, which is the state the micro-step leaves but for the status that a `Stop` sets; and the run
status is `Running` at every `Emit()`. -/
def Obligations.SnapshotsShowRunningState : Prop :=
  (∀ (s : State) (op : MicroOp), s.status = .running → nextOp s = some op →
    emitted s = some (op s).snapshot ∧
    emitted s = some { (microStep op s).snapshot with status := .running } ∧
    (s.continues 1 → emitted s = some (microStep op s).snapshot)) ∧
  (∀ (n : Nat) (s : State), ∀ snap ∈ snapshots n s, snap.status = .running)

/-! ### The image format and the assembler -/

/-- R69, R70 (digit order G2, log entry 12): the text written for a 256-byte image loads back to that image. -/
def Obligations.ImageTextLoadsBack : Prop :=
  ∀ image : List Byte, image.length = 256 → loadImage (some (imageText image)) = .ok image

/-- R70, R71 (D3, D25; log entries 12 and 22): an accepted text has at least 256 lines, its line `i` is exactly the 19
characters of index `i` and byte `i`, every line after the 256th is empty, and the loader changes no byte. -/
def Obligations.LoaderAcceptsOnlyExactLines : Prop :=
  ∀ (text : List Char) (image : List Byte), loadImage (some text) = .ok image →
    image.length = 256 ∧
    (∀ i (h : i < image.length),
      (splitLines text)[i]? = some (imageLine i image[i]) ∧ (imageLine i image[i]).length = 19) ∧
    ∀ line ∈ (splitLines text).drop 256, line = []

/-- R66: an accepted source gives exactly 256 bytes, zero above the emitted length. -/
def Obligations.AssembledImageIsPadded : Prop :=
  ∀ (map : OpcodeMap) (text : List Char) (r : Assembly), assemble map (some text) = .ok r →
    r.image.length = 256 ∧ r.codeLength ≤ 256 ∧ ∀ i, r.codeLength ≤ i → i < 256 → r.image[i]? = some 0

/-- R64 (the final check D19, log entry 13): the variables are at 255, 254, … in order of allocation, each name once,
and none lies in the emitted code. -/
def Obligations.VariablesDescendAboveCode : Prop :=
  ∀ (map : OpcodeMap) (text : List Char) (r : Assembly), assemble map (some text) = .ok r →
    r.vars.map Prod.snd = (List.range r.vars.length).map (fun k => 255 - k) ∧
    (r.vars.map Prod.fst).Nodup ∧ ∀ v ∈ r.vars, r.codeLength ≤ v.2

/-- R59, R60: the address of a tag is Pass 1's count of the lines before it, which is the number of bytes Pass 2 has
emitted by then. -/
def Obligations.TagAddressCountsEmittedBytes : Prop :=
  ∀ (map : OpcodeMap) (text : List Char) (r : Assembly) (pre post : List SourceLine) (l : SourceLine) (name : Token),
    assemble map (some text) = .ok r → parseSource (splitLines text) = .ok (pre ++ l :: post) →
    tagName l.opcode = some name →
    ∃ e, passTwo map r.tags Emission.initial pre = .ok e ∧ Symbols.find r.tags name = some e.code.length ∧
      e.code.length = ((pre.filter (fun k => (tagName k.opcode).isNone)).map passOneSize).sum

/-- R61: literal lines emit their integers as bytes, verbatim and in order. -/
def Obligations.LiteralLinesEmitVerbatim : Prop :=
  ∀ (map : OpcodeMap) (tags : Symbols) (e : Emission) (ls : List SourceLine) (ns : List Nat),
    ls.map (fun l => readDecimal l.opcode) = ns.map some → (∀ n ∈ ns, n ≤ 255) → (∀ l ∈ ls, l.argument = none) →
    passTwo map tags e ls = .ok { e with code := e.code ++ ns.map (fun n => BitVec.ofNat 8 n) }

/-- R65: the optional adjustment of any resolved operand, modulo 256, and its two errors. -/
def Obligations.OperandAdjustmentWraps : Prop :=
  ∀ (value n : Nat) (arg : Token), readDecimal arg = some n →
    adjustOperand value (some ['+']) (some arg) = .ok (BitVec.ofNat 8 (value + n)) ∧
    adjustOperand value (some ['*']) (some arg) = .ok (BitVec.ofNat 8 (value * n)) ∧
    (∃ v : Byte, adjustOperand value (some ['-']) (some arg) = .ok v ∧
      (v.toNat : Int) = ((value : Int) - (n : Int)) % 256) ∧
    (∀ a : Option Token, adjustOperand value none a = .ok (BitVec.ofNat 8 value)) ∧
    (∀ op ∈ [['+'], ['-'], ['*']], ∀ a : Option Token, a.bind readDecimal = none →
      adjustOperand value (some op) a = .error .missingOptionalArgument) ∧
    (∀ op ∉ [['+'], ['-'], ['*']], ∀ a, adjustOperand value (some op) a = .error .invalidOptionalOperator)
end

