-- ==== Sys2Proof/Laws/Decode.lean ====
section
/-! SUPPORT. What the decoder's parts can do: the lookup through a map, the vacant code, the nibbles of an opcode byte. -/

namespace Sys2Proof

/-- The list of mnemonics leaves none out. -/
theorem mem_all (m : Mnemonic) : m ∈ Mnemonic.all := by cases m <;> decide

/-- The codes of a map are those of its mnemonics. -/
theorem codes_eq_map (map : OpcodeMap) : map.codes = Mnemonic.all.map map.code := rfl

/-- An allowed map has distinct codes (R50). -/
theorem codes_nodup (map : OpcodeMap) (h : map.wf = true) : map.codes.Nodup := by
  simp only [OpcodeMap.wf, OpcodeMap.distinct, Bool.and_eq_true, decide_eq_true_eq] at h
  exact h.1.1.1

/-- Under an allowed map a code belongs to one mnemonic. -/
theorem code_injective (map : OpcodeMap) (h : map.wf = true) (m k : Mnemonic) (hc : map.code m = map.code k) : m = k :=
  List.inj_on_of_nodup_map (codes_eq_map map ▸ codes_nodup map h) (mem_all m) (mem_all k) hc

/-- Looking a mnemonic's code up gives it back (R78). -/
theorem lookup_code (map : OpcodeMap) (h : map.wf = true) (m : Mnemonic) : map.lookup (map.code m) = some m := by
  unfold OpcodeMap.lookup
  cases hf : Mnemonic.all.find? (fun k => map.code k == map.code m) with
  | none => exact absurd (List.find?_eq_none.1 hf m (mem_all m)) (by simp)
  | some k => rw [code_injective map h k m (by simpa using List.find?_some hf)]

/-- What a lookup finds has the code looked up. -/
theorem code_of_lookup (map : OpcodeMap) (c : Nibble) (m : Mnemonic) (h : map.lookup c = some m) : map.code m = c := by
  simpa using List.find?_some h

/-- A lookup finds nothing exactly where no mnemonic has the code (R51). -/
theorem lookup_eq_none (map : OpcodeMap) (c : Nibble) : map.lookup c = none ↔ ∀ m, map.code m ≠ c := by
  unfold OpcodeMap.lookup
  rw [List.find?_eq_none]
  exact ⟨fun h m hc => h m (mem_all m) (by simp [hc]), fun h m _ hc => h m (by simpa using hc)⟩

/-- The sixteen codes are all listed. -/
theorem mem_allCodes (c : Nibble) : c ∈ allCodes := by
  revert c
  decide

/-- Fifteen codes leave one of the sixteen over (R50). -/
theorem exists_vacant (map : OpcodeMap) : ∃ c : Nibble, c ∉ map.codes := by
  by_contra hc
  push Not at hc
  have h1 : (Finset.univ : Finset Nibble) ⊆ map.codes.toFinset := fun c _ => by simpa using hc c
  have h2 := Finset.card_le_card h1
  have h3 := map.codes.toFinset_card_le
  have h4 : map.codes.length = 15 := rfl
  have h5 : (Finset.univ : Finset Nibble).card = 16 := by decide
  omega

/-- The vacant code is no mnemonic's (R50). -/
theorem vacant_not_mem (map : OpcodeMap) : map.vacant ∉ map.codes := by
  unfold OpcodeMap.vacant
  cases hf : allCodes.find? (fun c => !map.codes.contains c) with
  | none =>
    obtain ⟨c, hc⟩ := exists_vacant map
    exact absurd (List.find?_eq_none.1 hf c (mem_allCodes c)) (by simpa using hc)
  | some k => simpa using List.find?_some hf

/-- The nibbles of an opcode byte as the assembler writes it (R44, R62). -/
theorem highNibble_opcodeByte (c : Nibble) : highNibble (opcodeByte c) = c := by
  revert c
  decide

theorem lowNibble_opcodeByte (c : Nibble) : lowNibble (opcodeByte c) = 0 := by
  revert c
  decide

/-- A byte with low nibble 0 is the opcode byte of its high nibble. -/
theorem opcodeByte_highNibble (v : Byte) (h : lowNibble v = 0) : opcodeByte (highNibble v) = v := by
  revert v
  decide

/-- An opcode byte as the assembler writes it decodes by its code under both policies (R45). -/
theorem decodeOpcode_opcodeByte (p : Params) (c : Nibble) : decodeOpcode p (opcodeByte c) = p.opcodeMap.lookup c := by
  unfold decodeOpcode
  rw [highNibble_opcodeByte, lowNibble_opcodeByte]
  cases p.lowNibblePolicy <;> simp

end Sys2Proof
end

