-- ==== Sys2Proof/Laws/Flags.lean ====
section
/-! SUPPORT. What the 9-bit intermediate of R84 holds, as sums and differences of bytes. -/

namespace Sys2Proof.Machine

/-- The low 8 bits of the addition. -/
theorem aluIntermediate_add (a b : Byte) : (aluIntermediate a b false).setWidth 8 = a + b := by
  apply BitVec.eq_of_toNat_eq
  simp [aluIntermediate]

/-- The low 8 bits of the subtraction. -/
theorem aluIntermediate_sub (a b : Byte) : (aluIntermediate a b true).setWidth 8 = a - b := by
  have ha := a.isLt
  have hb := b.isLt
  apply BitVec.eq_of_toNat_eq
  simp [aluIntermediate, BitVec.toNat_sub]
  omega

/-- Bit 8 of the addition: the carry out. -/
theorem aluIntermediate_add_carry (a b : Byte) :
    (aluIntermediate a b false).getLsbD 8 = decide (256 ≤ a.toNat + b.toNat) := by
  have ha := a.isLt
  have hb := b.isLt
  rw [BitVec.getLsbD, Nat.testBit_eq_decide_div_mod_eq]
  simp [aluIntermediate]
  rw [Nat.mod_eq_of_lt (by omega : a.toNat + b.toNat < 512)]
  omega

/-- Bit 8 of the subtraction: no borrow. -/
theorem aluIntermediate_sub_carry (a b : Byte) :
    (aluIntermediate a b true).getLsbD 8 = decide (b.toNat ≤ a.toNat) := by
  have ha := a.isLt
  have hb := b.isLt
  rw [BitVec.getLsbD, Nat.testBit_eq_decide_div_mod_eq]
  simp [aluIntermediate]
  omega

/-- A doubled byte: its carry is its top bit, and it is zero exactly when the other seven are (R98, R99). -/
theorem double_carry : ∀ m : Byte, decide (256 ≤ m.toNat + m.toNat) = m.getLsbD 7 := by decide

theorem double_zero : ∀ m : Byte, decide (m + m = 0) = decide (m.extractLsb' 0 7 = 0) := by decide

end Sys2Proof.Machine
end

