-- ==== Sys2Proof/Laws/State.lean ====
section
/-! SUPPORT. One lemma per field per update: what each assignment leaves in each field of the state, by rfl. -/

namespace Sys2Proof.Machine

/-! ### memFromPc -/
@[simp] theorem memFromPc_mem (s : State) : (memFromPc s).mem = s.pc := rfl
@[simp] theorem memFromPc_a (s : State) : (memFromPc s).a = s.a := rfl
@[simp] theorem memFromPc_b (s : State) : (memFromPc s).b = s.b := rfl
@[simp] theorem memFromPc_sum (s : State) : (memFromPc s).sum = s.sum := rfl
@[simp] theorem memFromPc_instruction (s : State) : (memFromPc s).instruction = s.instruction := rfl
@[simp] theorem memFromPc_pc (s : State) : (memFromPc s).pc = s.pc := rfl
@[simp] theorem memFromPc_out (s : State) : (memFromPc s).out = s.out := rfl
@[simp] theorem memFromPc_zero (s : State) : (memFromPc s).zero = s.zero := rfl
@[simp] theorem memFromPc_carry (s : State) : (memFromPc s).carry = s.carry := rfl
@[simp] theorem memFromPc_memory (s : State) : (memFromPc s).memory = s.memory := rfl
@[simp] theorem memFromPc_status (s : State) : (memFromPc s).status = s.status := rfl
@[simp] theorem memFromPc_position (s : State) : (memFromPc s).position = s.position := rfl
@[simp] theorem memFromPc_outSeq (s : State) : (memFromPc s).outSeq = s.outSeq := rfl
@[simp] theorem memFromPc_answers (s : State) : (memFromPc s).answers = s.answers := rfl
@[simp] theorem memFromPc_params (s : State) : (memFromPc s).params = s.params := rfl

/-! ### pcIncrement -/
@[simp] theorem pcIncrement_mem (s : State) : (pcIncrement s).mem = s.mem := rfl
@[simp] theorem pcIncrement_a (s : State) : (pcIncrement s).a = s.a := rfl
@[simp] theorem pcIncrement_b (s : State) : (pcIncrement s).b = s.b := rfl
@[simp] theorem pcIncrement_sum (s : State) : (pcIncrement s).sum = s.sum := rfl
@[simp] theorem pcIncrement_instruction (s : State) : (pcIncrement s).instruction = s.instruction := rfl
@[simp] theorem pcIncrement_pc (s : State) : (pcIncrement s).pc = s.pc + 1 := rfl
@[simp] theorem pcIncrement_out (s : State) : (pcIncrement s).out = s.out := rfl
@[simp] theorem pcIncrement_zero (s : State) : (pcIncrement s).zero = s.zero := rfl
@[simp] theorem pcIncrement_carry (s : State) : (pcIncrement s).carry = s.carry := rfl
@[simp] theorem pcIncrement_memory (s : State) : (pcIncrement s).memory = s.memory := rfl
@[simp] theorem pcIncrement_status (s : State) : (pcIncrement s).status = s.status := rfl
@[simp] theorem pcIncrement_position (s : State) : (pcIncrement s).position = s.position := rfl
@[simp] theorem pcIncrement_outSeq (s : State) : (pcIncrement s).outSeq = s.outSeq := rfl
@[simp] theorem pcIncrement_answers (s : State) : (pcIncrement s).answers = s.answers := rfl
@[simp] theorem pcIncrement_params (s : State) : (pcIncrement s).params = s.params := rfl

/-! ### loadInstruction -/
@[simp] theorem loadInstruction_mem (s : State) : (loadInstruction s).mem = s.mem := rfl
@[simp] theorem loadInstruction_a (s : State) : (loadInstruction s).a = s.a := rfl
@[simp] theorem loadInstruction_b (s : State) : (loadInstruction s).b = s.b := rfl
@[simp] theorem loadInstruction_sum (s : State) : (loadInstruction s).sum = s.sum := rfl
@[simp] theorem loadInstruction_instruction (s : State) : (loadInstruction s).instruction = s.memory.read s.mem := rfl
@[simp] theorem loadInstruction_pc (s : State) : (loadInstruction s).pc = s.pc := rfl
@[simp] theorem loadInstruction_out (s : State) : (loadInstruction s).out = s.out := rfl
@[simp] theorem loadInstruction_zero (s : State) : (loadInstruction s).zero = s.zero := rfl
@[simp] theorem loadInstruction_carry (s : State) : (loadInstruction s).carry = s.carry := rfl
@[simp] theorem loadInstruction_memory (s : State) : (loadInstruction s).memory = s.memory := rfl
@[simp] theorem loadInstruction_status (s : State) : (loadInstruction s).status = s.status := rfl
@[simp] theorem loadInstruction_position (s : State) : (loadInstruction s).position = s.position := rfl
@[simp] theorem loadInstruction_outSeq (s : State) : (loadInstruction s).outSeq = s.outSeq := rfl
@[simp] theorem loadInstruction_answers (s : State) : (loadInstruction s).answers = s.answers := rfl
@[simp] theorem loadInstruction_params (s : State) : (loadInstruction s).params = s.params := rfl

/-! ### setMem -/
@[simp] theorem setMem_mem (v : Byte) (s : State) : (setMem v s).mem = v := rfl
@[simp] theorem setMem_a (v : Byte) (s : State) : (setMem v s).a = s.a := rfl
@[simp] theorem setMem_b (v : Byte) (s : State) : (setMem v s).b = s.b := rfl
@[simp] theorem setMem_sum (v : Byte) (s : State) : (setMem v s).sum = s.sum := rfl
@[simp] theorem setMem_instruction (v : Byte) (s : State) : (setMem v s).instruction = s.instruction := rfl
@[simp] theorem setMem_pc (v : Byte) (s : State) : (setMem v s).pc = s.pc := rfl
@[simp] theorem setMem_out (v : Byte) (s : State) : (setMem v s).out = s.out := rfl
@[simp] theorem setMem_zero (v : Byte) (s : State) : (setMem v s).zero = s.zero := rfl
@[simp] theorem setMem_carry (v : Byte) (s : State) : (setMem v s).carry = s.carry := rfl
@[simp] theorem setMem_memory (v : Byte) (s : State) : (setMem v s).memory = s.memory := rfl
@[simp] theorem setMem_status (v : Byte) (s : State) : (setMem v s).status = s.status := rfl
@[simp] theorem setMem_position (v : Byte) (s : State) : (setMem v s).position = s.position := rfl
@[simp] theorem setMem_outSeq (v : Byte) (s : State) : (setMem v s).outSeq = s.outSeq := rfl
@[simp] theorem setMem_answers (v : Byte) (s : State) : (setMem v s).answers = s.answers := rfl
@[simp] theorem setMem_params (v : Byte) (s : State) : (setMem v s).params = s.params := rfl

/-! ### setA -/
@[simp] theorem setA_mem (v : Byte) (s : State) : (setA v s).mem = s.mem := rfl
@[simp] theorem setA_a (v : Byte) (s : State) : (setA v s).a = v := rfl
@[simp] theorem setA_b (v : Byte) (s : State) : (setA v s).b = s.b := rfl
@[simp] theorem setA_sum (v : Byte) (s : State) : (setA v s).sum = s.sum := rfl
@[simp] theorem setA_instruction (v : Byte) (s : State) : (setA v s).instruction = s.instruction := rfl
@[simp] theorem setA_pc (v : Byte) (s : State) : (setA v s).pc = s.pc := rfl
@[simp] theorem setA_out (v : Byte) (s : State) : (setA v s).out = s.out := rfl
@[simp] theorem setA_zero (v : Byte) (s : State) : (setA v s).zero = s.zero := rfl
@[simp] theorem setA_carry (v : Byte) (s : State) : (setA v s).carry = s.carry := rfl
@[simp] theorem setA_memory (v : Byte) (s : State) : (setA v s).memory = s.memory := rfl
@[simp] theorem setA_status (v : Byte) (s : State) : (setA v s).status = s.status := rfl
@[simp] theorem setA_position (v : Byte) (s : State) : (setA v s).position = s.position := rfl
@[simp] theorem setA_outSeq (v : Byte) (s : State) : (setA v s).outSeq = s.outSeq := rfl
@[simp] theorem setA_answers (v : Byte) (s : State) : (setA v s).answers = s.answers := rfl
@[simp] theorem setA_params (v : Byte) (s : State) : (setA v s).params = s.params := rfl

/-! ### setB -/
@[simp] theorem setB_mem (v : Byte) (s : State) : (setB v s).mem = s.mem := rfl
@[simp] theorem setB_a (v : Byte) (s : State) : (setB v s).a = s.a := rfl
@[simp] theorem setB_b (v : Byte) (s : State) : (setB v s).b = v := rfl
@[simp] theorem setB_sum (v : Byte) (s : State) : (setB v s).sum = s.sum := rfl
@[simp] theorem setB_instruction (v : Byte) (s : State) : (setB v s).instruction = s.instruction := rfl
@[simp] theorem setB_pc (v : Byte) (s : State) : (setB v s).pc = s.pc := rfl
@[simp] theorem setB_out (v : Byte) (s : State) : (setB v s).out = s.out := rfl
@[simp] theorem setB_zero (v : Byte) (s : State) : (setB v s).zero = s.zero := rfl
@[simp] theorem setB_carry (v : Byte) (s : State) : (setB v s).carry = s.carry := rfl
@[simp] theorem setB_memory (v : Byte) (s : State) : (setB v s).memory = s.memory := rfl
@[simp] theorem setB_status (v : Byte) (s : State) : (setB v s).status = s.status := rfl
@[simp] theorem setB_position (v : Byte) (s : State) : (setB v s).position = s.position := rfl
@[simp] theorem setB_outSeq (v : Byte) (s : State) : (setB v s).outSeq = s.outSeq := rfl
@[simp] theorem setB_answers (v : Byte) (s : State) : (setB v s).answers = s.answers := rfl
@[simp] theorem setB_params (v : Byte) (s : State) : (setB v s).params = s.params := rfl

/-! ### setPc -/
@[simp] theorem setPc_mem (v : Byte) (s : State) : (setPc v s).mem = s.mem := rfl
@[simp] theorem setPc_a (v : Byte) (s : State) : (setPc v s).a = s.a := rfl
@[simp] theorem setPc_b (v : Byte) (s : State) : (setPc v s).b = s.b := rfl
@[simp] theorem setPc_sum (v : Byte) (s : State) : (setPc v s).sum = s.sum := rfl
@[simp] theorem setPc_instruction (v : Byte) (s : State) : (setPc v s).instruction = s.instruction := rfl
@[simp] theorem setPc_pc (v : Byte) (s : State) : (setPc v s).pc = v := rfl
@[simp] theorem setPc_out (v : Byte) (s : State) : (setPc v s).out = s.out := rfl
@[simp] theorem setPc_zero (v : Byte) (s : State) : (setPc v s).zero = s.zero := rfl
@[simp] theorem setPc_carry (v : Byte) (s : State) : (setPc v s).carry = s.carry := rfl
@[simp] theorem setPc_memory (v : Byte) (s : State) : (setPc v s).memory = s.memory := rfl
@[simp] theorem setPc_status (v : Byte) (s : State) : (setPc v s).status = s.status := rfl
@[simp] theorem setPc_position (v : Byte) (s : State) : (setPc v s).position = s.position := rfl
@[simp] theorem setPc_outSeq (v : Byte) (s : State) : (setPc v s).outSeq = s.outSeq := rfl
@[simp] theorem setPc_answers (v : Byte) (s : State) : (setPc v s).answers = s.answers := rfl
@[simp] theorem setPc_params (v : Byte) (s : State) : (setPc v s).params = s.params := rfl

/-! ### loadA -/
@[simp] theorem loadA_mem (s : State) : (loadA s).mem = s.mem := rfl
@[simp] theorem loadA_a (s : State) : (loadA s).a = s.memory.read s.mem := rfl
@[simp] theorem loadA_b (s : State) : (loadA s).b = s.b := rfl
@[simp] theorem loadA_sum (s : State) : (loadA s).sum = s.sum := rfl
@[simp] theorem loadA_instruction (s : State) : (loadA s).instruction = s.instruction := rfl
@[simp] theorem loadA_pc (s : State) : (loadA s).pc = s.pc := rfl
@[simp] theorem loadA_out (s : State) : (loadA s).out = s.out := rfl
@[simp] theorem loadA_zero (s : State) : (loadA s).zero = s.zero := rfl
@[simp] theorem loadA_carry (s : State) : (loadA s).carry = s.carry := rfl
@[simp] theorem loadA_memory (s : State) : (loadA s).memory = s.memory := rfl
@[simp] theorem loadA_status (s : State) : (loadA s).status = s.status := rfl
@[simp] theorem loadA_position (s : State) : (loadA s).position = s.position := rfl
@[simp] theorem loadA_outSeq (s : State) : (loadA s).outSeq = s.outSeq := rfl
@[simp] theorem loadA_answers (s : State) : (loadA s).answers = s.answers := rfl
@[simp] theorem loadA_params (s : State) : (loadA s).params = s.params := rfl

/-! ### loadB -/
@[simp] theorem loadB_mem (s : State) : (loadB s).mem = s.mem := rfl
@[simp] theorem loadB_a (s : State) : (loadB s).a = s.a := rfl
@[simp] theorem loadB_b (s : State) : (loadB s).b = s.memory.read s.mem := rfl
@[simp] theorem loadB_sum (s : State) : (loadB s).sum = s.sum := rfl
@[simp] theorem loadB_instruction (s : State) : (loadB s).instruction = s.instruction := rfl
@[simp] theorem loadB_pc (s : State) : (loadB s).pc = s.pc := rfl
@[simp] theorem loadB_out (s : State) : (loadB s).out = s.out := rfl
@[simp] theorem loadB_zero (s : State) : (loadB s).zero = s.zero := rfl
@[simp] theorem loadB_carry (s : State) : (loadB s).carry = s.carry := rfl
@[simp] theorem loadB_memory (s : State) : (loadB s).memory = s.memory := rfl
@[simp] theorem loadB_status (s : State) : (loadB s).status = s.status := rfl
@[simp] theorem loadB_position (s : State) : (loadB s).position = s.position := rfl
@[simp] theorem loadB_outSeq (s : State) : (loadB s).outSeq = s.outSeq := rfl
@[simp] theorem loadB_answers (s : State) : (loadB s).answers = s.answers := rfl
@[simp] theorem loadB_params (s : State) : (loadB s).params = s.params := rfl

/-! ### storeA -/
@[simp] theorem storeA_mem (s : State) : (storeA s).mem = s.mem := rfl
@[simp] theorem storeA_a (s : State) : (storeA s).a = s.a := rfl
@[simp] theorem storeA_b (s : State) : (storeA s).b = s.b := rfl
@[simp] theorem storeA_sum (s : State) : (storeA s).sum = s.sum := rfl
@[simp] theorem storeA_instruction (s : State) : (storeA s).instruction = s.instruction := rfl
@[simp] theorem storeA_pc (s : State) : (storeA s).pc = s.pc := rfl
@[simp] theorem storeA_out (s : State) : (storeA s).out = s.out := rfl
@[simp] theorem storeA_zero (s : State) : (storeA s).zero = s.zero := rfl
@[simp] theorem storeA_carry (s : State) : (storeA s).carry = s.carry := rfl
@[simp] theorem storeA_memory (s : State) : (storeA s).memory = s.memory.write s.mem s.a := rfl
@[simp] theorem storeA_status (s : State) : (storeA s).status = s.status := rfl
@[simp] theorem storeA_position (s : State) : (storeA s).position = s.position := rfl
@[simp] theorem storeA_outSeq (s : State) : (storeA s).outSeq = s.outSeq := rfl
@[simp] theorem storeA_answers (s : State) : (storeA s).answers = s.answers := rfl
@[simp] theorem storeA_params (s : State) : (storeA s).params = s.params := rfl

/-! ### bFromA -/
@[simp] theorem bFromA_mem (s : State) : (bFromA s).mem = s.mem := rfl
@[simp] theorem bFromA_a (s : State) : (bFromA s).a = s.a := rfl
@[simp] theorem bFromA_b (s : State) : (bFromA s).b = s.a := rfl
@[simp] theorem bFromA_sum (s : State) : (bFromA s).sum = s.sum := rfl
@[simp] theorem bFromA_instruction (s : State) : (bFromA s).instruction = s.instruction := rfl
@[simp] theorem bFromA_pc (s : State) : (bFromA s).pc = s.pc := rfl
@[simp] theorem bFromA_out (s : State) : (bFromA s).out = s.out := rfl
@[simp] theorem bFromA_zero (s : State) : (bFromA s).zero = s.zero := rfl
@[simp] theorem bFromA_carry (s : State) : (bFromA s).carry = s.carry := rfl
@[simp] theorem bFromA_memory (s : State) : (bFromA s).memory = s.memory := rfl
@[simp] theorem bFromA_status (s : State) : (bFromA s).status = s.status := rfl
@[simp] theorem bFromA_position (s : State) : (bFromA s).position = s.position := rfl
@[simp] theorem bFromA_outSeq (s : State) : (bFromA s).outSeq = s.outSeq := rfl
@[simp] theorem bFromA_answers (s : State) : (bFromA s).answers = s.answers := rfl
@[simp] theorem bFromA_params (s : State) : (bFromA s).params = s.params := rfl

/-! ### aFromSum -/
@[simp] theorem aFromSum_mem (s : State) : (aFromSum s).mem = s.mem := rfl
@[simp] theorem aFromSum_a (s : State) : (aFromSum s).a = s.sum := rfl
@[simp] theorem aFromSum_b (s : State) : (aFromSum s).b = s.b := rfl
@[simp] theorem aFromSum_sum (s : State) : (aFromSum s).sum = s.sum := rfl
@[simp] theorem aFromSum_instruction (s : State) : (aFromSum s).instruction = s.instruction := rfl
@[simp] theorem aFromSum_pc (s : State) : (aFromSum s).pc = s.pc := rfl
@[simp] theorem aFromSum_out (s : State) : (aFromSum s).out = s.out := rfl
@[simp] theorem aFromSum_zero (s : State) : (aFromSum s).zero = s.zero := rfl
@[simp] theorem aFromSum_carry (s : State) : (aFromSum s).carry = s.carry := rfl
@[simp] theorem aFromSum_memory (s : State) : (aFromSum s).memory = s.memory := rfl
@[simp] theorem aFromSum_status (s : State) : (aFromSum s).status = s.status := rfl
@[simp] theorem aFromSum_position (s : State) : (aFromSum s).position = s.position := rfl
@[simp] theorem aFromSum_outSeq (s : State) : (aFromSum s).outSeq = s.outSeq := rfl
@[simp] theorem aFromSum_answers (s : State) : (aFromSum s).answers = s.answers := rfl
@[simp] theorem aFromSum_params (s : State) : (aFromSum s).params = s.params := rfl

/-! ### outFromA -/
@[simp] theorem outFromA_mem (s : State) : (outFromA s).mem = s.mem := rfl
@[simp] theorem outFromA_a (s : State) : (outFromA s).a = s.a := rfl
@[simp] theorem outFromA_b (s : State) : (outFromA s).b = s.b := rfl
@[simp] theorem outFromA_sum (s : State) : (outFromA s).sum = s.sum := rfl
@[simp] theorem outFromA_instruction (s : State) : (outFromA s).instruction = s.instruction := rfl
@[simp] theorem outFromA_pc (s : State) : (outFromA s).pc = s.pc := rfl
@[simp] theorem outFromA_out (s : State) : (outFromA s).out = s.a := rfl
@[simp] theorem outFromA_zero (s : State) : (outFromA s).zero = s.zero := rfl
@[simp] theorem outFromA_carry (s : State) : (outFromA s).carry = s.carry := rfl
@[simp] theorem outFromA_memory (s : State) : (outFromA s).memory = s.memory := rfl
@[simp] theorem outFromA_status (s : State) : (outFromA s).status = s.status := rfl
@[simp] theorem outFromA_position (s : State) : (outFromA s).position = s.position := rfl
@[simp] theorem outFromA_outSeq (s : State) : (outFromA s).outSeq = s.outSeq ++ [s.a] := rfl
@[simp] theorem outFromA_answers (s : State) : (outFromA s).answers = s.answers := rfl
@[simp] theorem outFromA_params (s : State) : (outFromA s).params = s.params := rfl

/-! ### derefMem -/
@[simp] theorem derefMem_mem (s : State) : (derefMem s).mem = s.memory.read s.mem := rfl
@[simp] theorem derefMem_a (s : State) : (derefMem s).a = s.a := rfl
@[simp] theorem derefMem_b (s : State) : (derefMem s).b = s.b := rfl
@[simp] theorem derefMem_sum (s : State) : (derefMem s).sum = s.sum := rfl
@[simp] theorem derefMem_instruction (s : State) : (derefMem s).instruction = s.instruction := rfl
@[simp] theorem derefMem_pc (s : State) : (derefMem s).pc = s.pc := rfl
@[simp] theorem derefMem_out (s : State) : (derefMem s).out = s.out := rfl
@[simp] theorem derefMem_zero (s : State) : (derefMem s).zero = s.zero := rfl
@[simp] theorem derefMem_carry (s : State) : (derefMem s).carry = s.carry := rfl
@[simp] theorem derefMem_memory (s : State) : (derefMem s).memory = s.memory := rfl
@[simp] theorem derefMem_status (s : State) : (derefMem s).status = s.status := rfl
@[simp] theorem derefMem_position (s : State) : (derefMem s).position = s.position := rfl
@[simp] theorem derefMem_outSeq (s : State) : (derefMem s).outSeq = s.outSeq := rfl
@[simp] theorem derefMem_answers (s : State) : (derefMem s).answers = s.answers := rfl
@[simp] theorem derefMem_params (s : State) : (derefMem s).params = s.params := rfl

/-! ### loadPc -/
@[simp] theorem loadPc_mem (s : State) : (loadPc s).mem = s.mem := rfl
@[simp] theorem loadPc_a (s : State) : (loadPc s).a = s.a := rfl
@[simp] theorem loadPc_b (s : State) : (loadPc s).b = s.b := rfl
@[simp] theorem loadPc_sum (s : State) : (loadPc s).sum = s.sum := rfl
@[simp] theorem loadPc_instruction (s : State) : (loadPc s).instruction = s.instruction := rfl
@[simp] theorem loadPc_pc (s : State) : (loadPc s).pc = s.memory.read s.mem := rfl
@[simp] theorem loadPc_out (s : State) : (loadPc s).out = s.out := rfl
@[simp] theorem loadPc_zero (s : State) : (loadPc s).zero = s.zero := rfl
@[simp] theorem loadPc_carry (s : State) : (loadPc s).carry = s.carry := rfl
@[simp] theorem loadPc_memory (s : State) : (loadPc s).memory = s.memory := rfl
@[simp] theorem loadPc_status (s : State) : (loadPc s).status = s.status := rfl
@[simp] theorem loadPc_position (s : State) : (loadPc s).position = s.position := rfl
@[simp] theorem loadPc_outSeq (s : State) : (loadPc s).outSeq = s.outSeq := rfl
@[simp] theorem loadPc_answers (s : State) : (loadPc s).answers = s.answers := rfl
@[simp] theorem loadPc_params (s : State) : (loadPc s).params = s.params := rfl

/-! ### flaggedCompute -/
@[simp] theorem flaggedCompute_mem (sub : Bool) (s : State) :
    (flaggedCompute sub s).mem = s.mem := rfl
@[simp] theorem flaggedCompute_a (sub : Bool) (s : State) :
    (flaggedCompute sub s).a = s.a := rfl
@[simp] theorem flaggedCompute_b (sub : Bool) (s : State) :
    (flaggedCompute sub s).b = s.b := rfl
@[simp] theorem flaggedCompute_sum (sub : Bool) (s : State) :
    (flaggedCompute sub s).sum = (aluIntermediate s.a s.b sub).setWidth 8 := rfl
@[simp] theorem flaggedCompute_instruction (sub : Bool) (s : State) :
    (flaggedCompute sub s).instruction = s.instruction := rfl
@[simp] theorem flaggedCompute_pc (sub : Bool) (s : State) :
    (flaggedCompute sub s).pc = s.pc := rfl
@[simp] theorem flaggedCompute_out (sub : Bool) (s : State) :
    (flaggedCompute sub s).out = s.out := rfl
@[simp] theorem flaggedCompute_zero (sub : Bool) (s : State) :
    (flaggedCompute sub s).zero = ((aluIntermediate s.a s.b sub).setWidth 8 == 0) := rfl
@[simp] theorem flaggedCompute_carry (sub : Bool) (s : State) :
    (flaggedCompute sub s).carry = (aluIntermediate s.a s.b sub).getLsbD 8 := rfl
@[simp] theorem flaggedCompute_memory (sub : Bool) (s : State) :
    (flaggedCompute sub s).memory = s.memory := rfl
@[simp] theorem flaggedCompute_status (sub : Bool) (s : State) :
    (flaggedCompute sub s).status = s.status := rfl
@[simp] theorem flaggedCompute_position (sub : Bool) (s : State) :
    (flaggedCompute sub s).position = s.position := rfl
@[simp] theorem flaggedCompute_outSeq (sub : Bool) (s : State) :
    (flaggedCompute sub s).outSeq = s.outSeq := rfl
@[simp] theorem flaggedCompute_answers (sub : Bool) (s : State) :
    (flaggedCompute sub s).answers = s.answers := rfl
@[simp] theorem flaggedCompute_params (sub : Bool) (s : State) :
    (flaggedCompute sub s).params = s.params := rfl

/-! ### refreshAfter -/
@[simp] theorem refreshAfter_mem (sub : Bool) (s : State) :
    (refreshAfter sub s).mem = s.mem := rfl
@[simp] theorem refreshAfter_a (sub : Bool) (s : State) :
    (refreshAfter sub s).a = s.a := rfl
@[simp] theorem refreshAfter_b (sub : Bool) (s : State) :
    (refreshAfter sub s).b = s.b := rfl
@[simp] theorem refreshAfter_sum (sub : Bool) (s : State) :
    (refreshAfter sub s).sum = (aluIntermediate s.a s.b (refreshSubtracts s.params sub)).setWidth 8 := rfl
@[simp] theorem refreshAfter_instruction (sub : Bool) (s : State) :
    (refreshAfter sub s).instruction = s.instruction := rfl
@[simp] theorem refreshAfter_pc (sub : Bool) (s : State) :
    (refreshAfter sub s).pc = s.pc := rfl
@[simp] theorem refreshAfter_out (sub : Bool) (s : State) :
    (refreshAfter sub s).out = s.out := rfl
@[simp] theorem refreshAfter_zero (sub : Bool) (s : State) :
    (refreshAfter sub s).zero = s.zero := rfl
@[simp] theorem refreshAfter_carry (sub : Bool) (s : State) :
    (refreshAfter sub s).carry = s.carry := rfl
@[simp] theorem refreshAfter_memory (sub : Bool) (s : State) :
    (refreshAfter sub s).memory = s.memory := rfl
@[simp] theorem refreshAfter_status (sub : Bool) (s : State) :
    (refreshAfter sub s).status = s.status := rfl
@[simp] theorem refreshAfter_position (sub : Bool) (s : State) :
    (refreshAfter sub s).position = s.position := rfl
@[simp] theorem refreshAfter_outSeq (sub : Bool) (s : State) :
    (refreshAfter sub s).outSeq = s.outSeq := rfl
@[simp] theorem refreshAfter_answers (sub : Bool) (s : State) :
    (refreshAfter sub s).answers = s.answers := rfl
@[simp] theorem refreshAfter_params (sub : Bool) (s : State) :
    (refreshAfter sub s).params = s.params := rfl

/-! ### The query: it takes one answer, and changes only the status beside it -/
@[simp] theorem emit_mem (s : State) : s.emit.mem = s.mem := by
  unfold State.emit; split <;> rfl
@[simp] theorem emit_a (s : State) : s.emit.a = s.a := by
  unfold State.emit; split <;> rfl
@[simp] theorem emit_b (s : State) : s.emit.b = s.b := by
  unfold State.emit; split <;> rfl
@[simp] theorem emit_sum (s : State) : s.emit.sum = s.sum := by
  unfold State.emit; split <;> rfl
@[simp] theorem emit_instruction (s : State) : s.emit.instruction = s.instruction := by
  unfold State.emit; split <;> rfl
@[simp] theorem emit_pc (s : State) : s.emit.pc = s.pc := by
  unfold State.emit; split <;> rfl
@[simp] theorem emit_out (s : State) : s.emit.out = s.out := by
  unfold State.emit; split <;> rfl
@[simp] theorem emit_zero (s : State) : s.emit.zero = s.zero := by
  unfold State.emit; split <;> rfl
@[simp] theorem emit_carry (s : State) : s.emit.carry = s.carry := by
  unfold State.emit; split <;> rfl
@[simp] theorem emit_memory (s : State) : s.emit.memory = s.memory := by
  unfold State.emit; split <;> rfl
@[simp] theorem emit_position (s : State) : s.emit.position = s.position := by
  unfold State.emit; split <;> rfl
@[simp] theorem emit_outSeq (s : State) : s.emit.outSeq = s.outSeq := by
  unfold State.emit; split <;> rfl
@[simp] theorem emit_params (s : State) : s.emit.params = s.params := by
  unfold State.emit; split <;> rfl
@[simp] theorem emit_answers (s : State) : s.emit.answers = s.answers.tail := by
  unfold State.emit; split <;> simp_all
theorem emit_status (s : State) :
    s.emit.status = if s.answers.head? = some .stop then .cancelled else s.status := by
  unfold State.emit; split <;> simp_all

/-! ### The start of a run -/
@[simp] theorem start_mem (p : Params) (r : ResetRegs) (m : Memory) (l : List HostAnswer) :
    (State.start p r m l).mem = r.mem := rfl
@[simp] theorem start_a (p : Params) (r : ResetRegs) (m : Memory) (l : List HostAnswer) :
    (State.start p r m l).a = r.a := rfl
@[simp] theorem start_b (p : Params) (r : ResetRegs) (m : Memory) (l : List HostAnswer) :
    (State.start p r m l).b = r.b := rfl
@[simp] theorem start_sum (p : Params) (r : ResetRegs) (m : Memory) (l : List HostAnswer) :
    (State.start p r m l).sum = r.sum := rfl
@[simp] theorem start_instruction (p : Params) (r : ResetRegs) (m : Memory) (l : List HostAnswer) :
    (State.start p r m l).instruction = r.instruction := rfl
@[simp] theorem start_pc (p : Params) (r : ResetRegs) (m : Memory) (l : List HostAnswer) :
    (State.start p r m l).pc = 0 := rfl
@[simp] theorem start_out (p : Params) (r : ResetRegs) (m : Memory) (l : List HostAnswer) :
    (State.start p r m l).out = r.out := rfl
@[simp] theorem start_zero (p : Params) (r : ResetRegs) (m : Memory) (l : List HostAnswer) :
    (State.start p r m l).zero = r.zero := rfl
@[simp] theorem start_carry (p : Params) (r : ResetRegs) (m : Memory) (l : List HostAnswer) :
    (State.start p r m l).carry = r.carry := rfl
@[simp] theorem start_memory (p : Params) (r : ResetRegs) (m : Memory) (l : List HostAnswer) :
    (State.start p r m l).memory = m := rfl
@[simp] theorem start_status (p : Params) (r : ResetRegs) (m : Memory) (l : List HostAnswer) :
    (State.start p r m l).status = .running := rfl
@[simp] theorem start_position (p : Params) (r : ResetRegs) (m : Memory) (l : List HostAnswer) :
    (State.start p r m l).position = 0 := rfl
@[simp] theorem start_outSeq (p : Params) (r : ResetRegs) (m : Memory) (l : List HostAnswer) :
    (State.start p r m l).outSeq = [] := rfl
@[simp] theorem start_answers (p : Params) (r : ResetRegs) (m : Memory) (l : List HostAnswer) :
    (State.start p r m l).answers = l := rfl
@[simp] theorem start_params (p : Params) (r : ResetRegs) (m : Memory) (l : List HostAnswer) :
    (State.start p r m l).params = p := rfl

end Sys2Proof.Machine
end

