-- ==== Sys2Proof/Laws/Ops.lean ====
section
/-! SUPPORT. What each shared operation can do, said once: memory, the micro-step, runs of micro-steps, the ALU. -/

namespace Sys2Proof.Machine

/-! ### Memory -/

/-- A key below every key of a list is not in it. -/
theorem get_of_all_gt (m : List Host.Cell) (k : Nat) (h : ∀ c ∈ m, k < c.1) : Memory.get m k = unlistedByte := by
  induction m with
  | nil => rfl
  | cons c rest ih =>
    obtain ⟨k', v⟩ := c
    have h1 : k < k' := h (k', v) (by simp)
    simp only [Memory.get]
    rw [if_neg (by omega)]
    exact ih (fun c hc => h c (by simp [hc]))

/-- A write leaves every other key alone. -/
theorem get_put_ne (m : List Host.Cell) (k j : Nat) (x : Byte) (h : j ≠ k) :
    Memory.get (Memory.put m k x) j = Memory.get m j := by
  induction m with
  | nil =>
    simp only [Memory.put]
    split <;> simp [Memory.get, h]
  | cons c rest ih =>
    obtain ⟨k', v⟩ := c
    simp only [Memory.put]
    split
    · split <;> simp [Memory.get, h]
    · split
      · subst_vars
        split <;> simp [Memory.get, h]
      · simp only [Memory.get, ih]

/-- A read after a write to the same key gives the value written, on a sorted list. -/
theorem get_put_eq (m : List Host.Cell) (k : Nat) (x : Byte) (h : m.Pairwise (fun c d => c.1 < d.1)) :
    Memory.get (Memory.put m k x) k = x := by
  induction m with
  | nil =>
    simp only [Memory.put]
    split <;> simp_all [Memory.get]
  | cons c rest ih =>
    obtain ⟨k', v⟩ := c
    obtain ⟨h1, h2⟩ := List.pairwise_cons.1 h
    simp only [Memory.put]
    split
    · rename_i hlt
      split
      · rename_i hx
        rw [hx]
        refine get_of_all_gt _ _ (fun c hc => ?_)
        rcases List.mem_cons.1 hc with rfl | hc
        · exact hlt
        · exact Nat.lt_trans hlt (h1 c hc)
      · simp [Memory.get]
    · split
      · rename_i heq
        subst heq
        split
        · rename_i hx
          rw [hx]
          exact get_of_all_gt _ _ (fun c hc => h1 c hc)
        · simp [Memory.get]
      · rename_i hne
        simp only [Memory.get, if_neg hne]
        exact ih h2

/-- Where the entries of a written list come from. -/
theorem mem_put (m : List Host.Cell) (k : Nat) (x : Byte) (c : Host.Cell) (h : c ∈ Memory.put m k x) :
    c ∈ m ∨ (c = (k, x) ∧ x ≠ unlistedByte) := by
  induction m with
  | nil =>
    simp only [Memory.put] at h
    split at h <;> simp_all
  | cons d rest ih =>
    obtain ⟨k', v⟩ := d
    simp only [Memory.put] at h
    split at h
    · split at h
      · exact .inl h
      · rcases List.mem_cons.1 h with h | h
        · exact .inr ⟨h, ‹_›⟩
        · exact .inl h
    · split at h
      · split at h
        · exact .inl (List.mem_cons_of_mem _ h)
        · rcases List.mem_cons.1 h with h | h
          · exact .inr ⟨h, ‹_›⟩
          · exact .inl (List.mem_cons_of_mem _ h)
      · rcases List.mem_cons.1 h with h | h
        · exact .inl (by simp [h])
        · rcases ih h with h | h
          · exact .inl (List.mem_cons_of_mem _ h)
          · exact .inr h

/-- A write keeps the list sorted. -/
theorem put_sorted (m : List Host.Cell) (k : Nat) (x : Byte) (h : m.Pairwise (fun c d => c.1 < d.1)) :
    (Memory.put m k x).Pairwise (fun c d => c.1 < d.1) := by
  induction m with
  | nil =>
    simp only [Memory.put]
    split <;> simp
  | cons d rest ih =>
    obtain ⟨k', v⟩ := d
    obtain ⟨h1, h2⟩ := List.pairwise_cons.1 h
    simp only [Memory.put]
    split
    · rename_i hlt
      split
      · exact h
      · refine List.pairwise_cons.2 ⟨fun c hc => ?_, h⟩
        rcases List.mem_cons.1 hc with rfl | hc
        · exact hlt
        · exact Nat.lt_trans hlt (h1 c hc)
    · split
      · rename_i heq
        split
        · exact h2
        · exact List.pairwise_cons.2 ⟨fun c hc => by simpa [heq] using h1 c hc, h2⟩
      · refine List.pairwise_cons.2 ⟨fun c hc => ?_, ih h2⟩
        rcases mem_put _ _ _ _ hc with hc | ⟨rfl, -⟩
        · exact h1 c hc
        · show k' < k
          omega

/-- Every write keeps the canonical form. -/
theorem Memory.write_wf (m : Memory) (addr v : Byte) (h : m.wf) : (m.write addr v).wf := by
  refine ⟨put_sorted _ _ _ h.1, fun c hc => ?_⟩
  rcases mem_put _ _ _ _ hc with hc | ⟨rfl, hx⟩
  · exact h.2 c hc
  · exact ⟨addr.isLt, hx⟩

/-- Read after write, in canonical memory. -/
theorem Memory.read_write (m : Memory) (addr v x : Byte) (h : m.wf) :
    (m.write addr v).read x = if x = addr then v else m.read x := by
  unfold Memory.read Memory.write
  split
  · subst_vars
    exact get_put_eq _ _ _ h.1
  · rename_i hne
    exact get_put_ne _ _ _ _ (fun hc => hne (BitVec.eq_of_toNat_eq hc))

/-- A write leaves every other address alone, in any memory. -/
theorem Memory.read_write_ne (m : Memory) (addr v x : Byte) (h : x ≠ addr) :
    (m.write addr v).read x = m.read x :=
  get_put_ne _ _ _ _ (fun hc => h (BitVec.eq_of_toNat_eq hc))

/-- The entries of a loaded memory lie at or above its first address, below its last. -/
theorem mem_ofBytesFrom (l : List Byte) (k : Nat) (c : Host.Cell) (h : c ∈ Memory.ofBytesFrom k l) :
    k ≤ c.1 ∧ c.1 < k + l.length ∧ c.2 ≠ unlistedByte := by
  induction l generalizing k with
  | nil => simp [Memory.ofBytesFrom] at h
  | cons x xs ih =>
    simp only [Memory.ofBytesFrom] at h
    split at h
    · obtain ⟨h1, h2, h3⟩ := ih _ h
      simp only [List.length_cons]
      exact ⟨by omega, by omega, h3⟩
    · rename_i hx
      rcases List.mem_cons.1 h with rfl | h
      · simp [hx]
      · obtain ⟨h1, h2, h3⟩ := ih _ h
        simp only [List.length_cons]
        exact ⟨by omega, by omega, h3⟩

/-- A loaded memory is sorted. -/
theorem ofBytesFrom_sorted (l : List Byte) (k : Nat) :
    (Memory.ofBytesFrom k l).Pairwise (fun c d => c.1 < d.1) := by
  induction l generalizing k with
  | nil => simp [Memory.ofBytesFrom]
  | cons x xs ih =>
    simp only [Memory.ofBytesFrom]
    split
    · exact ih _
    · exact List.pairwise_cons.2 ⟨fun c hc => Nat.lt_of_succ_le (mem_ofBytesFrom _ _ _ hc).1, ih _⟩

/-- Loading an image gives canonical memory. -/
theorem Memory.ofImage_wf (image : List Byte) : (Memory.ofImage image).wf := by
  refine ⟨ofBytesFrom_sorted _ _, fun c hc => ?_⟩
  have h := mem_ofBytesFrom _ _ _ hc
  have hl : (image.take memorySize).length ≤ memorySize := by simp
  exact ⟨by omega, h.2.2⟩

/-- A byte of a loaded memory. -/
theorem get_ofBytesFrom (l : List Byte) (k i : Nat) (h : i < l.length) :
    Memory.get (Memory.ofBytesFrom k l) (k + i) = l[i] := by
  induction l generalizing k i with
  | nil => simp at h
  | cons x xs ih =>
    simp only [Memory.ofBytesFrom]
    cases i with
    | zero =>
      split
      · rename_i hx
        simp only [Nat.add_zero, List.getElem_cons_zero]
        rw [hx]
        exact get_of_all_gt _ _ (fun c hc => Nat.lt_of_succ_le (mem_ofBytesFrom _ _ _ hc).1)
      · simp [Memory.get]
    | succ i =>
      have h' : i < xs.length := by simpa using h
      have := ih (k + 1) i h'
      rw [show k + (i + 1) = k + 1 + i by omega]
      split
      · simpa using this
      · simp only [Memory.get]
        rw [if_neg (by omega)]
        simpa using this

/-- The empty memory of `State.reset` is canonical. -/
theorem reset_memory_wf : State.reset.memory.wf := by
  constructor
  · exact List.Pairwise.nil
  · intro c hc
    simp [State.reset] at hc

/-- `placeWord` keeps the canonical form. -/
theorem placeWord_memory_wf (s : State) (bytes : Byte × Byte) (h : s.memory.wf) : (placeWord s bytes).memory.wf :=
  Memory.write_wf _ _ _ (Memory.write_wf _ _ _ h)

/-! ### The micro-step -/

/-- An assignment that leaves the status, the position, the answers and the parameters alone, and reads none of the
first three: every assignment of the pseudocode. -/
structure Plain (op : MicroOp) : Prop where
  status   : ∀ s, (op s).status = s.status
  answers  : ∀ s, (op s).answers = s.answers
  params   : ∀ s, (op s).params = s.params
  commutes : ∀ s n l st,
    op { s with position := n, answers := l, status := st } = { op s with position := n, answers := l, status := st }

@[simp] theorem plain_memFromPc : Plain memFromPc := ⟨fun _ => rfl, fun _ => rfl, fun _ => rfl, fun _ _ _ _ => rfl⟩
@[simp] theorem plain_pcIncrement : Plain pcIncrement := ⟨fun _ => rfl, fun _ => rfl, fun _ => rfl, fun _ _ _ _ => rfl⟩
@[simp] theorem plain_loadInstruction : Plain loadInstruction := ⟨fun _ => rfl, fun _ => rfl, fun _ => rfl, fun _ _ _ _ => rfl⟩
@[simp] theorem plain_setMem (v : Byte) : Plain (setMem v) := ⟨fun _ => rfl, fun _ => rfl, fun _ => rfl, fun _ _ _ _ => rfl⟩
@[simp] theorem plain_setA (v : Byte) : Plain (setA v) := ⟨fun _ => rfl, fun _ => rfl, fun _ => rfl, fun _ _ _ _ => rfl⟩
@[simp] theorem plain_setB (v : Byte) : Plain (setB v) := ⟨fun _ => rfl, fun _ => rfl, fun _ => rfl, fun _ _ _ _ => rfl⟩
@[simp] theorem plain_setPc (v : Byte) : Plain (setPc v) := ⟨fun _ => rfl, fun _ => rfl, fun _ => rfl, fun _ _ _ _ => rfl⟩
@[simp] theorem plain_loadA : Plain loadA := ⟨fun _ => rfl, fun _ => rfl, fun _ => rfl, fun _ _ _ _ => rfl⟩
@[simp] theorem plain_loadB : Plain loadB := ⟨fun _ => rfl, fun _ => rfl, fun _ => rfl, fun _ _ _ _ => rfl⟩
@[simp] theorem plain_storeA : Plain storeA := ⟨fun _ => rfl, fun _ => rfl, fun _ => rfl, fun _ _ _ _ => rfl⟩
@[simp] theorem plain_bFromA : Plain bFromA := ⟨fun _ => rfl, fun _ => rfl, fun _ => rfl, fun _ _ _ _ => rfl⟩
@[simp] theorem plain_aFromSum : Plain aFromSum := ⟨fun _ => rfl, fun _ => rfl, fun _ => rfl, fun _ _ _ _ => rfl⟩
@[simp] theorem plain_outFromA : Plain outFromA := ⟨fun _ => rfl, fun _ => rfl, fun _ => rfl, fun _ _ _ _ => rfl⟩
@[simp] theorem plain_derefMem : Plain derefMem := ⟨fun _ => rfl, fun _ => rfl, fun _ => rfl, fun _ _ _ _ => rfl⟩
@[simp] theorem plain_loadPc : Plain loadPc := ⟨fun _ => rfl, fun _ => rfl, fun _ => rfl, fun _ _ _ _ => rfl⟩
@[simp] theorem plain_flaggedCompute (sub : Bool) : Plain (flaggedCompute sub) :=
  ⟨fun _ => rfl, fun _ => rfl, fun _ => rfl, fun _ _ _ _ => rfl⟩
@[simp] theorem plain_refreshAfter (sub : Bool) : Plain (refreshAfter sub) :=
  ⟨fun _ => rfl, fun _ => rfl, fun _ => rfl, fun _ _ _ _ => rfl⟩

/-- A micro-step answered `Continue` (or not answered by the list): its assignment, one answer fewer. -/
theorem microStep_proceed (op : MicroOp) (hp : Plain op) (s : State) (h : s.continues 1) :
    microStep op s = { op s with position := s.position + 1, answers := s.answers.tail } := by
  have ha : (op s).answers = s.answers := hp.answers s
  unfold microStep State.emit
  rw [show ({ op s with position := s.position + 1 } : State).answers = s.answers from ha]
  revert h
  cases hs : s.answers with
  | nil =>
    intro _
    have ht := ha.trans hs
    generalize op s = t at ht
    cases t
    subst ht
    rfl
  | cons x rest =>
    intro h
    obtain rfl : x = .proceed := h x (by simp [hs])
    rfl

/-- A micro-step answered `Stop`: its assignment, and the run is `Cancelled` (R76, R114). -/
theorem microStep_stop (op : MicroOp) (hp : Plain op) (s : State) (rest : List HostAnswer)
    (h : s.answers = .stop :: rest) :
    microStep op s = { op s with position := s.position + 1, answers := rest, status := .cancelled } := by
  have ha : (op s).answers = s.answers := hp.answers s
  unfold microStep State.emit
  rw [show ({ op s with position := s.position + 1 } : State).answers = .stop :: rest from ha.trans h]

/-! ### Runs of micro-steps -/

/-- A run that has ended does no micro-step (R73). -/
theorem runMicro_ended (ops : List MicroOp) (s : State) (h : s.status ≠ .running) : runMicro ops s = s := by
  cases ops with
  | nil => rfl
  | cons op rest => simp [runMicro, h]

/-- One micro-step of a `Running` engine, then the rest. -/
theorem runMicro_cons (op : MicroOp) (rest : List MicroOp) (s : State) (h : s.status = .running) :
    runMicro (op :: rest) s = runMicro rest (microStep op s) := by
  simp [runMicro, h]

/-- Runs compose. -/
theorem runMicro_append (l₁ l₂ : List MicroOp) (s : State) :
    runMicro (l₁ ++ l₂) s = runMicro l₂ (runMicro l₁ s) := by
  induction l₁ generalizing s with
  | nil => rfl
  | cons op rest ih =>
    by_cases h : s.status = .running
    · simp only [List.cons_append, runMicro_cons _ _ _ h, ih]
    · simp only [runMicro_ended _ _ h]

@[simp] theorem assignAll_nil (s : State) : assignAll [] s = s := rfl
@[simp] theorem assignAll_cons (op : MicroOp) (rest : List MicroOp) (s : State) :
    assignAll (op :: rest) s = assignAll rest (op s) := rfl

/-- Plain assignments in a row commute with the position, the answers and the status. -/
theorem assignAll_commutes (ops : List MicroOp) (hp : ∀ op ∈ ops, Plain op) (s : State) (n : Nat)
    (l : List HostAnswer) (st : RunStatus) :
    assignAll ops { s with position := n, answers := l, status := st } =
      { assignAll ops s with position := n, answers := l, status := st } := by
  induction ops generalizing s with
  | nil => rfl
  | cons op rest ih =>
    simp only [assignAll_cons]
    rw [(hp op (by simp)).commutes]
    exact ih (fun o ho => hp o (by simp [ho])) (op s)

theorem assignAll_status (ops : List MicroOp) (hp : ∀ op ∈ ops, Plain op) (s : State) :
    (assignAll ops s).status = s.status := by
  induction ops generalizing s with
  | nil => rfl
  | cons op rest ih =>
    rw [assignAll_cons, ih (fun o ho => hp o (by simp [ho])), (hp op (by simp)).status]

/-- A run the host lets go on: all its assignments, one answer taken for each. -/
theorem runMicro_continues (ops : List MicroOp) (hp : ∀ op ∈ ops, Plain op) (s : State) (hr : s.status = .running)
    (h : s.continues ops.length) :
    runMicro ops s =
      { assignAll ops s with position := s.position + ops.length, answers := s.answers.drop ops.length } := by
  induction ops generalizing s with
  | nil => simp [runMicro]
  | cons op rest ih =>
    have hop := hp op (by simp)
    have h1 : s.continues 1 := fun x hx => h x (by
      refine List.mem_of_mem_take (i := 1) ?_
      rw [List.take_take]
      simpa using hx)
    rw [runMicro_cons _ _ _ hr, microStep_proceed _ hop _ h1]
    rw [ih (fun o ho => hp o (by simp [ho])) _ (by simpa using (hop.status s).trans hr)]
    · have hst : (op s).status = s.status := hop.status s
      have := assignAll_commutes rest (fun o ho => hp o (by simp [ho])) (op s) (s.position + 1) s.answers.tail
        (op s).status
      rw [show ({ op s with position := s.position + 1, answers := s.answers.tail } : State) =
        { op s with position := s.position + 1, answers := s.answers.tail, status := (op s).status } from rfl, this]
      have hs2 := assignAll_status rest (fun o ho => hp o (by simp [ho])) (op s)
      simp only [assignAll_cons, List.length_cons, List.drop_tail]
      rw [← hs2]
      simp only [Nat.add_assoc, Nat.add_comm 1]
    · intro x hx
      refine h x ?_
      simp only [List.length_cons]
      cases hs : s.answers with
      | nil => simp [hs] at hx
      | cons y ys =>
        simp only [hs, List.tail_cons] at hx
        simp [List.take_succ_cons, hx]

/-- A run the host stops at its micro-step `k + 1`: the first `k + 1` assignments, and the run is `Cancelled` there. -/
theorem runMicro_stops (ops : List MicroOp) (hp : ∀ op ∈ ops, Plain op) (s : State) (hr : s.status = .running)
    (k : Nat) (hk : k < ops.length) (rest : List HostAnswer)
    (h : s.answers = List.replicate k .proceed ++ .stop :: rest) :
    runMicro ops s =
      { assignAll (ops.take (k + 1)) s with
          position := s.position + (k + 1), answers := rest, status := .cancelled } := by
  induction ops generalizing s k with
  | nil => simp at hk
  | cons op more ih =>
    have hop := hp op (by simp)
    rw [runMicro_cons _ _ _ hr]
    cases k with
    | zero =>
      rw [microStep_stop _ hop _ rest (by simpa using h), runMicro_ended _ _ (by simp)]
      simp
    | succ k =>
      have h1 : s.continues 1 := by
        intro x hx
        simpa [h, List.replicate_succ] using hx
      rw [microStep_proceed _ hop _ h1]
      rw [ih (fun o ho => hp o (by simp [ho])) _ (by simpa using (hop.status s).trans hr) k (by simpa using hk)
        (by simp [h, List.replicate_succ])]
      have := assignAll_commutes (more.take (k + 1))
        (fun o ho => hp o (by simp [List.mem_of_mem_take ho])) (op s) (s.position + 1) s.answers.tail (op s).status
      rw [show ({ op s with position := s.position + 1, answers := s.answers.tail } : State) =
        { op s with position := s.position + 1, answers := s.answers.tail, status := (op s).status } from rfl, this]
      simp only [List.take_succ_cons, assignAll_cons]
      congr 1
      omega

/-- The rest of an instruction that the host lets finish: all its assignments, one answer taken for each, and the
machine at a boundary. -/
theorem runCycle_continues (ops : List MicroOp) (hp : ∀ op ∈ ops, Plain op) (s : State) (hr : s.status = .running)
    (n : Nat) (hn : ops.length = n) (h : s.continues n) :
    runCycle ops s = { assignAll ops s with position := 0, answers := s.answers.drop n } := by
  subst hn
  unfold runCycle endCycle
  rw [runMicro_continues ops hp s hr h]
  rw [if_pos (by simpa using (assignAll_status ops hp s).trans hr)]

/-- The rest of an instruction in a run that has ended: nothing. -/
theorem runCycle_ended (ops : List MicroOp) (s : State) (h : s.status ≠ .running) : runCycle ops s = s := by
  simp [runCycle, endCycle, runMicro_ended _ _ h, h]

/-- What a property of states survives, if no assignment of the list, no query, no move of the position and no end of
the cycle disturbs it: the rest of an instruction, however the host answers. Frames are proved with it. -/
theorem runCycle_keeps (P : State → Prop) (ops : List MicroOp) (hop : ∀ op ∈ ops, ∀ s, P s → P (op s))
    (hany : ∀ s n l st, P s → P { s with position := n, answers := l, status := st }) (s : State) (h : P s) :
    P (runCycle ops s) := by
  have hm : P (runMicro ops s) := by
    induction ops generalizing s with
    | nil => exact h
    | cons op rest ih =>
      unfold runMicro
      split
      · refine ih (fun o ho => hop o (by simp [ho])) _ ?_
        have h1 := hop op (by simp) s h
        unfold microStep State.emit
        split
        · exact hany (op s) (s.position + 1) (op s).answers (op s).status h1
        · exact hany (op s) (s.position + 1) _ (op s).status h1
        · exact hany (op s) (s.position + 1) _ _ h1
      · exact h
  unfold runCycle endCycle
  split
  · exact hany _ 0 (runMicro ops s).answers (runMicro ops s).status hm
  · exact hm

/-- Every assignment of `cycleOps` is plain. -/
theorem plain_cycleOps (s : State) : ∀ op ∈ cycleOps s, Plain op := by
  intro op hop
  simp only [cycleOps, List.mem_append] at hop
  rcases hop with hop | hop
  · simp only [fetchOps, List.mem_cons, List.not_mem_nil, or_false] at hop
    rcases hop with rfl | rfl | rfl
    exacts [plain_memFromPc, plain_pcIncrement, plain_loadInstruction]
  · unfold decodedOps at hop
    split at hop
    · rename_i m _
      rw [List.mem_append] at hop
      rcases hop with hop | hop
      · unfold operandOps at hop
        split at hop <;> simp only [List.mem_cons, List.not_mem_nil, or_false] at hop <;>
          rcases hop with rfl | rfl | rfl <;>
          first
            | exact plain_memFromPc
            | exact plain_pcIncrement
            | exact plain_derefMem
      · unfold executeOps at hop
        repeat' split at hop
        all_goals simp only [List.mem_cons, List.not_mem_nil, or_false] at hop
        all_goals
          (repeat' rcases hop with rfl | hop) <;>
          first
            | exact plain_loadA
            | exact plain_loadB
            | exact plain_storeA
            | exact plain_loadPc
            | exact plain_bFromA
            | exact plain_aFromSum
            | exact plain_outFromA
            | exact plain_flaggedCompute _
            | exact plain_refreshAfter _
    · simp at hop

end Sys2Proof.Machine
end

