-- ==== Sys2Proof/Laws/PerInstr.lean ====
section
/-! SUPPORT. A statement about every instruction as it is written: its encoding is as long as it says (R46, R53),
whatever the map. One lemma per constructor. -/

namespace Sys2Proof.Laws.EncodedLength

/-- The encoding of an instruction has the instruction's length. -/
def Statement (i : Instr) : Prop := ∀ map : OpcodeMap, (encode map i).length = i.length

theorem nop : Statement .nop := fun _ => rfl
theorem lda (a : Byte) : Statement (.lda a) := fun _ => rfl
theorem add (a : Byte) : Statement (.add a) := fun _ => rfl
theorem sub (a : Byte) : Statement (.sub a) := fun _ => rfl
theorem sta (a : Byte) : Statement (.sta a) := fun _ => rfl
theorem ldi (n : Byte) : Statement (.ldi n) := fun _ => rfl
theorem jmp (t : Byte) : Statement (.jmp t) := fun _ => rfl
theorem jc (t : Byte) : Statement (.jc t) := fun _ => rfl
theorem jz (t : Byte) : Statement (.jz t) := fun _ => rfl
theorem aei (n : Byte) : Statement (.aei n) := fun _ => rfl
theorem sei (n : Byte) : Statement (.sei n) := fun _ => rfl
theorem shl (a : Byte) : Statement (.shl a) := fun _ => rfl
theorem slf : Statement .slf := fun _ => rfl
theorem undefined : Statement .undefined := fun _ => rfl
theorem out : Statement .out := fun _ => rfl
theorem hlt : Statement .hlt := fun _ => rfl

end Sys2Proof.Laws.EncodedLength
end

