-- ==== Sys2Proof/Laws/Step.lean ====
section
/-! SUPPORT. What the fetch, a run of micro-steps and a run of steps can do. -/

namespace Sys2Proof.Machine

/-- The host lets fewer micro-steps pass if it lets more. -/
theorem continues_mono (s : State) (m n : Nat) (h : s.continues n) (hm : m ≤ n) : s.continues m := by
  intro x hx
  refine h x ?_
  rw [← Nat.min_eq_left hm, ← List.take_take] at hx
  exact List.mem_of_mem_take hx

/-- After a fetch the host lets the rest pass. -/
theorem fetched_continues (s : State) (n : Nat) (h : s.continues (n + 3)) : s.fetched.continues n := by
  intro x hx
  refine h x ?_
  simp only [State.fetched] at hx
  rw [List.mem_take_iff_getElem] at hx ⊢
  obtain ⟨i, hi, rfl⟩ := hx
  simp at hi
  exact ⟨3 + i, by omega, by simp⟩

/-- A fetch the host does not stop (R77). -/
theorem fetch_continues (s : State) (hr : s.status = .running) (h : s.continues 3) : fetch s = s.fetched := by
  unfold fetch
  rw [runMicro_continues fetchOps (by simp [fetchOps]) s hr h]
  rfl

/-- What a property of states survives over a run of micro-steps, if no assignment and no query disturbs it. -/
theorem runMicro_keeps (P : State → Prop) (ops : List MicroOp) (hop : ∀ op ∈ ops, ∀ s, P s → P (op s))
    (hany : ∀ s n l st, P s → P { s with position := n, answers := l, status := st }) (s : State) (h : P s) :
    P (runMicro ops s) := by
  induction ops generalizing s with
  | nil => exact h
  | cons op rest ih =>
    unfold runMicro
    split
    · refine ih (fun o ho => hop o (by simp [ho])) _ ?_
      have h1 := hop op (by simp) s h
      unfold microStep State.emit
      split
      · exact hany (op s) (s.position + 1) (op s).answers (op s).status h1
      · exact hany (op s) (s.position + 1) _ (op s).status h1
      · exact hany (op s) (s.position + 1) _ _ h1
    · exact h

/-- What a fetch leaves alone, however the host answers (R77). -/
theorem fetch_frame (s : State) :
    (fetch s).a = s.a ∧ (fetch s).b = s.b ∧ (fetch s).sum = s.sum ∧ (fetch s).out = s.out ∧ (fetch s).zero = s.zero ∧
    (fetch s).carry = s.carry ∧ (fetch s).memory = s.memory ∧ (fetch s).outSeq = s.outSeq ∧
    (fetch s).params = s.params := by
  refine runMicro_keeps (fun t => t.a = s.a ∧ t.b = s.b ∧ t.sum = s.sum ∧ t.out = s.out ∧ t.zero = s.zero ∧
    t.carry = s.carry ∧ t.memory = s.memory ∧ t.outSeq = s.outSeq ∧ t.params = s.params) fetchOps ?_
    (fun _ _ _ _ h => h) s (by simp)
  simp [fetchOps]
  tauto

/-- What a fetch that the host did not stop has written (R77). -/
theorem fetch_running (s : State) (hr : s.status = .running) (hf : (fetch s).status = .running) :
    (fetch s).mem = s.pc ∧ (fetch s).pc = s.pc + 1 ∧ (fetch s).instruction = s.opcode ∧
    (fetch s).position = s.position + 3 := by
  revert hf
  simp only [fetch, fetchOps, runMicro, hr, if_true]
  repeat' split
  all_goals simp_all [microStep]

/-- A micro-step takes one answer (R76). -/
theorem microStep_answers (op : MicroOp) (hp : Plain op) (s : State) : (microStep op s).answers = s.answers.tail := by
  simp [microStep, hp.answers s]

/-- A micro-step of a `Running` engine ends the run only on `Stop` (R76). -/
theorem microStep_status (op : MicroOp) (hp : Plain op) (s : State) (hr : s.status = .running) :
    (microStep op s).status = .running ∨ (microStep op s).status = .cancelled ∧ s.answers.head? = some .stop := by
  unfold microStep
  rw [emit_status]
  rw [show ({ op s with position := s.position + 1 } : State).answers = s.answers from hp.answers s]
  split
  · exact .inr ⟨rfl, by assumption⟩
  · exact .inl ((hp.status s).trans hr)

/-- A run of micro-steps goes on to its end or is `Cancelled` after one of them (R114). -/
theorem runMicro_status (ops : List MicroOp) (hp : ∀ op ∈ ops, Plain op) (s : State) (hr : s.status = .running) :
    (runMicro ops s).status = .running ∨
    ((runMicro ops s).status = .cancelled ∧ s.position + 1 ≤ (runMicro ops s).position ∧
      (runMicro ops s).position ≤ s.position + ops.length ∧ .stop ∈ s.answers) := by
  induction ops generalizing s with
  | nil => exact .inl hr
  | cons op rest ih =>
    rw [runMicro_cons _ _ _ hr]
    have hpos : (microStep op s).position = s.position + 1 := by simp [microStep]
    rcases microStep_status op (hp op (by simp)) s hr with h | ⟨h, h2⟩
    · rcases ih (fun o ho => hp o (by simp [ho])) _ h with h' | ⟨h1, h2, h3, h4⟩
      · exact .inl h'
      · rw [microStep_answers _ (hp op (by simp))] at h4
        exact .inr ⟨h1, by omega, by simp; omega, List.mem_of_mem_tail h4⟩
    · rw [runMicro_ended _ _ (by simp [h])]
      exact .inr ⟨h, by omega, by simp [hpos], List.mem_of_mem_head? (by simp [h2])⟩

/-- An instruction has at most eight micro-steps after its fetch (40_engine.md section 7). -/
theorem decodedOps_length (s : State) : (decodedOps s).length ≤ 8 := by
  unfold decodedOps
  split
  · rename_i m _
    cases m <;> simp only [operandOps, Mnemonic.mode, executeOps]
    all_goals (repeat' split)
    all_goals simp
  · simp

/-- No step faults: there is no fault to raise. -/
theorem step_no_fault (s : State) (r : Fault) : step s ≠ .fault r := by cases r

/-- A run of steps that answers a next state, one step at a time. -/
theorem core_run_succ (k : Nat) (s t : State) (h : core.run (k + 1) s = .next t) :
    ∃ u, step s = .next u ∧ core.run k u = .next t := by
  cases hs : step s with
  | next u =>
    have hs' : core.step s = .next u := hs
    exact ⟨u, rfl, by simpa [Host.Core.run, hs'] using h⟩
  | fault r => cases r
  | refused r =>
    have hs' : core.step s = .refused r := hs
    simp [Host.Core.run, hs'] at h

end Sys2Proof.Machine
end

