-- ==== Sys2Proof/Tests/Slice0.lean ====
section
/-! SUPPORT. The model's own tests. Every expected value is the spec's: the encodings of R49, the vectors V and T of
95_test_vectors.md, the examples of the rules. After them, for every obligation with hypotheses, states and operands
that meet all of them together. -/

namespace Sys2Proof.Machine.Tests

/-! ### Helpers -/

/-- Whether an outcome is a next state with a property. -/
def after (o : Host.Outcome State Fault Refusal) (p : State → Bool) : Bool :=
  match o with
  | .next t => p t
  | .fault _ => false
  | .refused _ => false

/-- The start of a vector of section 2: two bytes at 0x10, a third one at 0x80, everything else at reset. -/
def vector (b₀ b₁ m80 : Byte) : State :=
  placeWord { State.reset with pc := 0x10, memory := State.reset.memory.write 0x80 m80 } (b₀, b₁)

/-- Whether an assembler or loader result is this one. -/
def isError {ε α : Type} [DecidableEq ε] (r : Except ε α) (e : ε) : Bool :=
  match r with
  | .ok _ => false
  | .error e' => decide (e' = e)

/-- The first bytes of an accepted image. -/
def codeOf (r : Except AsmError Assembly) : List Byte :=
  match r with
  | .ok x => x.image.take x.codeLength
  | .error _ => []

/-! ### WellFormed: each of the four checks of R50 refuses a map that breaks it -/

theorem test_wf_standard : OpcodeMap.standard.wf = true := by decide

theorem test_wf_refuses_repeated_code :
    { OpcodeMap.standard with nop := 1 }.distinct = false ∧ { OpcodeMap.standard with nop := 1 }.wf = false := by
  decide

theorem test_wf_refuses_ldi :
    { OpcodeMap.standard with ldi := 13 }.ldiFixed = false ∧ { OpcodeMap.standard with ldi := 13 }.wf = false := by
  decide

theorem test_wf_refuses_out :
    { OpcodeMap.standard with out := 13 }.outFixed = false ∧ { OpcodeMap.standard with out := 13 }.wf = false := by
  decide

theorem test_wf_refuses_hlt :
    { OpcodeMap.standard with hlt := 13 }.hltFixed = false ∧ { OpcodeMap.standard with hlt := 13 }.wf = false := by
  decide

/-! ### Decode: every constructor from a word of R49's table, opcode nibble first, low nibble 0000 -/

theorem test_decode_nop : decodeTableWord 8 0b00000000 = some .nop := by decide
theorem test_decode_lda : decodeTableWord 16 0b10000000_00010000 = some (.lda 0x80) := by decide
theorem test_decode_add : decodeTableWord 16 0b10000001_00100000 = some (.add 0x81) := by decide
theorem test_decode_sub : decodeTableWord 16 0b00000011_00110000 = some (.sub 3) := by decide
theorem test_decode_sta : decodeTableWord 16 0b11111111_01000000 = some (.sta 0xFF) := by decide
theorem test_decode_ldi : decodeTableWord 16 0b00000101_01010000 = some (.ldi 5) := by decide
theorem test_decode_jmp : decodeTableWord 16 0b01000000_01100000 = some (.jmp 0x40) := by decide
theorem test_decode_jc : decodeTableWord 16 0b01000000_01110000 = some (.jc 0x40) := by decide
theorem test_decode_jz : decodeTableWord 16 0b00010110_10000000 = some (.jz 0x16) := by decide
theorem test_decode_aei : decodeTableWord 16 0b00000001_10010000 = some (.aei 1) := by decide
theorem test_decode_sei : decodeTableWord 16 0b00000001_10100000 = some (.sei 1) := by decide
theorem test_decode_shl : decodeTableWord 16 0b10000000_10110000 = some (.shl 0x80) := by decide
theorem test_decode_slf : decodeTableWord 8 0b11000000 = some .slf := by decide
theorem test_decode_undefined : decodeTableWord 8 0b11010000 = some .undefined := by decide
theorem test_decode_out : decodeTableWord 8 0b11100000 = some .out := by decide
theorem test_decode_hlt : decodeTableWord 8 0b11110000 = some .hlt := by decide

/-- A table word with no operand bits has the operand byte 0. -/
theorem test_decode_short_word : decodeTableWord 8 0x50 = some (.ldi 0) := by decide

/-- The decoder refuses by name what is no instruction, and leaves the bytes after one. -/
theorem test_decode_rejects :
    (match decode Params.standard [] with
      | .error e => decide (e = .noOpcode)
      | .ok _ => false) = true ∧
    (match decode Params.standard [0x50] with
      | .error e => decide (e = .noOperandByte)
      | .ok _ => false) = true := by decide

theorem test_decode_rest :
    (match decode Params.standard [0xE0, 0xF0, 0x01] with
      | .ok r => decide (r = (.out, [0xF0, 0x01]))
      | .error _ => false) = true := by decide

/-- The word is fetched and run as the very next instruction, after reset too. -/
theorem test_withFetchWord :
    after (step (State.reset.withFetchWord 16 0x2A50)) (fun t => t.a == 0x2A && t.pc == 2 && t.instruction == 0x50) =
      true := by decide

/-! ### One instruction each: the vectors V1 to V20 -/

/-- V1. -/
theorem test_lda :
    after (step { vector 0x10 0x80 0x2A with a := 1, b := 3, zero := true, carry := true })
      (fun t => t.a == 0x2A && t.sum == 0x2D && t.mem == 0x80 && t.pc == 0x12 && t.zero && t.carry) = true := by decide

/-- V2: the operand's own address. -/
theorem test_lda_own_operand :
    after (step (vector 0x10 0x11 0)) (fun t => t.a == 0x11 && t.sum == 0x11 && t.mem == 0x11) = true := by decide

/-- V3. -/
theorem test_sta :
    after (step { vector 0x40 0x80 0 with a := 0x99 })
      (fun t => t.memory.read 0x80 == 0x99 && t.mem == 0x80 && t.sum == 0 && t.b == 0) = true := by decide

/-- V3c: the next opcode, and the next fetch runs it. -/
theorem test_sta_next_opcode :
    after (step { vector 0x40 0x12 0 with a := 0xF0 }) (fun t =>
      after (step t) (fun u => u.status == .halted .hlt && u.pc == 0x13)) = true := by decide

/-- V4: no flag written. -/
theorem test_ldi_zero :
    after (step { vector 0x50 0 0 with a := 9, b := 4, carry := true })
      (fun t => t.a == 0 && t.sum == 4 && t.mem == 0x11 && !t.zero && t.carry) = true := by decide

/-- V19: opcode at 0xFF, operand at 0x00. -/
theorem test_ldi_wraps :
    after (step (placeWord { State.reset with pc := 0xFF } (0x50, 0x33)))
      (fun t => t.a == 0x33 && t.mem == 0 && t.pc == 1) = true := by decide

/-- V5. -/
theorem test_add :
    after (step { vector 0x20 0x80 100 with a := 200 })
      (fun t => t.a == 44 && t.b == 100 && t.sum == 144 && t.carry && !t.zero) = true := by decide

/-- V5c. -/
theorem test_add_wraps_to_zero :
    after (step { vector 0x20 0x80 128 with a := 128 })
      (fun t => t.a == 0 && t.sum == 128 && t.carry && t.zero) = true := by decide

/-- V6b: a borrow. -/
theorem test_sub :
    after (step { vector 0x30 0x80 5 with a := 3 })
      (fun t => t.a == 254 && t.b == 5 && t.sum == 3 && !t.carry && !t.zero) = true := by decide

/-- V6c under `refreshOp = likeCompute`. -/
theorem test_sub_like_compute :
    after (step ({ vector 0x30 0x80 7 with a := 7 }.withSwitches .likeCompute .aThenB))
      (fun t => t.a == 0 && t.sum == 249 && t.carry && t.zero) = true := by decide

/-- V7. -/
theorem test_aei :
    after (step { vector 0x90 1 0 with a := 255 })
      (fun t => t.a == 0 && t.b == 1 && t.sum == 1 && t.zero && t.carry && t.mem == 0x11) = true := by decide

/-- V8. -/
theorem test_sei :
    after (step (vector 0xA0 1 0)) (fun t => t.a == 255 && t.b == 1 && t.sum == 0 && !t.zero && !t.carry) = true := by
  decide

/-- V8b. -/
theorem test_sei_zero :
    after (step { vector 0xA0 0 0 with a := 9 }) (fun t => t.a == 9 && t.sum == 9 && !t.zero && t.carry) = true := by
  decide

/-- V9. -/
theorem test_shl :
    after (step { vector 0xB0 0x80 0x81 with a := 1, b := 2 })
      (fun t => t.a == 2 && t.b == 0x81 && t.sum == 0x83 && t.carry && !t.zero && t.memory.read 0x80 == 0x81) =
      true := by decide

/-- V9c under `shlOrder = BThenA`. -/
theorem test_shl_b_then_a :
    after (step ((vector 0xB0 0x80 0x40).withSwitches .add .bThenA))
      (fun t => t.a == 0x80 && t.b == 0x40 && t.sum == 0xC0 && !t.carry && !t.zero) = true := by decide

/-- V10. -/
theorem test_slf :
    after (step { vector 0xC0 0 0 with a := 0x81, b := 7 })
      (fun t => t.a == 2 && t.b == 0x81 && t.sum == 0x83 && t.carry && !t.zero && t.mem == 0x10 && t.pc == 0x11) =
      true := by decide

/-- V11. -/
theorem test_jmp :
    after (step (vector 0x60 0x40 0)) (fun t => t.pc == 0x40 && t.mem == 0x11 && t.instruction == 0x60) = true := by
  decide

/-- V12 and V12n. -/
theorem test_jc :
    after (step { vector 0x70 0x40 0 with carry := true }) (fun t => t.pc == 0x40 && t.mem == 0x11) = true ∧
    after (step { vector 0x70 0x40 0 with zero := true }) (fun t => t.pc == 0x12 && t.mem == 0x11) = true := by decide

/-- V13 and V13n. -/
theorem test_jz :
    after (step { vector 0x80 0x40 0 with zero := true }) (fun t => t.pc == 0x40 && t.mem == 0x11) = true ∧
    after (step { vector 0x80 0x40 0 with carry := true }) (fun t => t.pc == 0x12 && t.mem == 0x11) = true := by decide

/-- V14. -/
theorem test_nop :
    after (step { vector 0 0 0 with a := 3 })
      (fun t => decide (t = { vector 0 0 0 with a := 3, mem := 0x10, pc := 0x11 })) = true := by decide

/-- V15. -/
theorem test_out :
    after (step { vector 0xE0 0 0 with a := 0x5A }) (fun t => t.out == 0x5A && t.outSeq == [0x5A]) = true := by decide

/-- V16. -/
theorem test_hlt :
    after (step (vector 0xF0 0 0))
      (fun t => t.status == .halted .hlt && t.mem == 0x10 && t.pc == 0x11 && t.instruction == 0xF0) = true := by decide

/-- V17. -/
theorem test_undefined :
    after (step (vector 0xD0 0 0))
      (fun t => t.status == .halted .undefinedOpcode && t.mem == 0x10 && t.pc == 0x11 && t.instruction == 0xD0) =
      true := by decide

/-- V18, under both policies. -/
theorem test_low_nibble :
    after (step (vector 0x5F 0x21 0)) (fun t => t.a == 0x21 && t.instruction == 0x5F && t.pc == 0x12) = true ∧
    after (step { vector 0x5F 0x21 0 with params := { Params.standard with lowNibblePolicy := .haltIfNonzero } })
      (fun t => t.status == .halted .undefinedOpcode && t.a == 0 && t.pc == 0x11) = true := by decide

/-- V22: `Stop` at 8, after the flagged compute of ADD. -/
theorem test_stop_inside :
    after (step { vector 0x20 0x80 100 with a := 200, answers := List.replicate 7 .proceed ++ [.stop] })
      (fun t => t.status == .cancelled && t.b == 100 && t.sum == 44 && t.carry && t.a == 200 && t.position == 8) =
      true := by decide

/-- V23: `Stop` at MS3 of HLT. -/
theorem test_stop_before_halt :
    after (step { vector 0xF0 0 0 with answers := [.proceed, .proceed, .stop] })
      (fun t => t.status == .cancelled && t.instruction == 0xF0 && t.pc == 0x11) = true := by decide

/-! ### The toolchain: vectors of section 3 -/

/-- T15. -/
theorem test_assemble :
    codeOf (assemble OpcodeMap.standard (some "LDA x1\nSTA x1\nHLT # done".toList)) = [0x10, 0xFF, 0x40, 0xFF, 0xF0] := by
  decide +kernel

/-- T5 and T7. -/
theorem test_assemble_tags :
    isError (assemble OpcodeMap.standard (some "a:\nNOP\na:".toList)) .duplicateTag = true ∧
    isError (assemble OpcodeMap.standard (some "loop: OUT".toList)) .unexpectedOperand = true := by decide +kernel

/-- T8, T9 and T10. -/
theorem test_assemble_operands :
    isError (assemble OpcodeMap.standard (some "LDA x ^ 3".toList)) .invalidOptionalOperator = true ∧
    isError (assemble OpcodeMap.standard (some "LDA x +".toList)) .missingOptionalArgument = true ∧
    isError (assemble OpcodeMap.standard (some "300".toList)) .literalOutOfRange = true := by decide +kernel

/-- W9's first line, T16 and T18. -/
theorem test_image_lines :
    imageLine 0 0x50 = "00000000 | 01010000".toList ∧
    isError (loadImage (some "0000101 | 00000000".toList)) .malformedImage = true ∧
    isError (loadImage (some "00000001 | 01010000".toList)) .malformedImage = true := by decide +kernel

/-- R46 on the bytes of P1. -/
theorem test_loader_modes :
    loaderModes Params.standard .expectOpcode [0x50, 0x05, 0xE0, 0xF0] =
      [.expectOpcode, .expectOperand, .expectOpcode, .expectOpcode] := by decide

/-! ### Witnesses: states and operands that meet the hypotheses of each obligation together

`wordAt b₀ b₁` is a machine at reset with two bytes at 0xFE and 0xFF, where `PC` wraps; `allProceed` gives it a host
whose answers are listed and just long enough. -/

/-- Two bytes at the top of memory, `PC` at the first. -/
def wordAt (b₀ b₁ : Byte) : State := placeWord { State.reset with pc := 0xFE } (b₀, b₁)

/-- A host that answers `Continue` to exactly the next `n` events, and then `Stop`. -/
def allProceed (n : Nat) (s : State) : State := { s with answers := List.replicate n .proceed ++ [.stop] }

theorem witness_BootLoadsImageVerbatim :
    (match boot Params.standard ResetRegs.standard [] (some (imageText (List.replicate 256 0xF0))) with
      | .ok s => decide (s.memory.read 0xFF = 0xF0)
      | .error _ => false) = true ∧
    isError (loadImage none) .fileNotFound = true := by decide +kernel

theorem witness_DecodeEncodeRoundTrip : Params.standard.opcodeMap.wf = true := by decide

theorem witness_EncodeDecodeRoundTrip :
    Params.standard.opcodeMap.wf = true ∧ lowNibble 0x50 = 0 ∧
    decode Params.standard [0x50, 0xFF, 0xE0] = .ok (.ldi 0xFF, [0xE0]) := ⟨by decide, by decide, rfl⟩

theorem witness_ExactlyOneVacantCode :
    OpcodeMap.standard.wf = true ∧ ∀ m ∈ Mnemonic.all, OpcodeMap.standard.code m ≠ 13 := by decide

theorem witness_LowNibbleIgnoredOrHalts :
    (Params.standard.lowNibblePolicy = .ignore ∧ highNibble 0x5F = highNibble 0x50) ∧
    ({ Params.standard with lowNibblePolicy := .haltIfNonzero }.lowNibblePolicy = .haltIfNonzero ∧
      lowNibble 0x5F ≠ 0) := by decide

theorem witness_RefreshWritesSumOnly :
    State.reset.params.refreshOp = .add ∧
    (State.reset.withSwitches .likeCompute .aThenB).params.refreshOp = .likeCompute := by decide

/-- One state for every completion statement: no more `Continue`s than the longest of them needs. -/
theorem witness_meanings_complete :
    let s := allProceed 8 State.reset
    s.status = .running ∧ s.memory.wf ∧ s.continues 8 ∧ s.continues 7 ∧ s.continues 6 ∧ s.continues 5 ∧
    s.continues 4 ∧ s.continues 3 ∧ s.continues 1 := by decide

/-- The three jumps taken, and the two not taken with a `Stop` right after their last micro-step. -/
theorem witness_JumpsComplete :
    (let s := allProceed 3 State.reset
     s.status = .running ∧ s.continues 3) ∧
    (let s := allProceed 3 { State.reset with carry := true, zero := true }
     s.status = .running ∧ s.continues (if s.carry then 3 else 2) ∧ s.continues (if s.zero then 3 else 2)) ∧
    (let s := allProceed 2 State.reset
     s.status = .running ∧ s.continues (if s.carry then 3 else 2) ∧ s.continues (if s.zero then 3 else 2)) := by
  decide

/-- The frames: a meaning that completes, and one that the host stops. -/
theorem witness_frames :
    (∀ i ∈ [Instr.lda 0xFF, .ldi 0, .add 0xFF, .sub 0, .aei 0xFF, .sei 0, .shl 0xFF, .slf, .sta 0xFF, .jmp 0, .jc 0xFF,
        .jz 0, .nop, .out, .hlt, .undefined],
      after (exec i State.reset) (fun _ => true) = true) ∧
    after (exec (.add 0xFF) (allProceed 2 State.reset)) (fun t => t.status == .cancelled) = true := by decide

theorem witness_LdaCycle :
    let s := allProceed 8 (wordAt 0x10 0xFF)
    s.atBoundary ∧ s.atOpcode .lda ∧ s.continues 8 := by decide

theorem witness_StaCycle :
    let s := allProceed 7 (wordAt 0x40 0xFE)
    s.atBoundary ∧ s.memory.wf ∧ s.atOpcode .sta ∧ s.continues 7 := by decide

theorem witness_LdiCycle :
    let s := allProceed 7 (wordAt 0x5F 0xFF)
    s.atBoundary ∧ s.atOpcode .ldi ∧ s.continues 7 := by decide

theorem witness_AddCycle :
    let s := allProceed 10 (wordAt 0x20 0xFF)
    s.atBoundary ∧ s.atOpcode .add ∧ s.continues 10 := by decide

theorem witness_SubSeiShlCycles :
    (let s := allProceed 10 (wordAt 0x30 0xFF)
     s.atBoundary ∧ s.params.refreshOp = .add ∧ s.params.shlOrder = .aThenB ∧ s.atOpcode .sub ∧ s.continues 10) ∧
    (let s := allProceed 9 (wordAt 0xA0 0xFF)
     s.atBoundary ∧ s.params.refreshOp = .add ∧ s.params.shlOrder = .aThenB ∧ s.atOpcode .sei ∧ s.continues 9) ∧
    (let s := allProceed 11 (wordAt 0xB0 0xFF)
     s.atBoundary ∧ s.params.refreshOp = .add ∧ s.params.shlOrder = .aThenB ∧ s.atOpcode .shl ∧
       s.continues 11) := by decide

theorem witness_AeiCycle :
    let s := allProceed 9 (wordAt 0x90 0xFF)
    s.atBoundary ∧ s.atOpcode .aei ∧ s.continues 9 := by decide

theorem witness_SlfCycle :
    let s := allProceed 7 (wordAt 0xC0 0)
    s.atBoundary ∧ s.atOpcode .slf ∧ s.continues 7 := by decide

theorem witness_JumpCycles :
    (let s := allProceed 6 (wordAt 0x60 0xFE)
     s.atBoundary ∧ s.atOpcode .jmp ∧ s.continues 6) ∧
    (let s := allProceed 6 { wordAt 0x70 0xFE with carry := true }
     s.atBoundary ∧ s.atOpcode .jc ∧ s.continues (if s.carry then 6 else 5)) ∧
    (let s := allProceed 5 (wordAt 0x70 0xFE)
     s.atBoundary ∧ s.atOpcode .jc ∧ s.continues (if s.carry then 6 else 5)) ∧
    (let s := allProceed 6 { wordAt 0x80 0xFE with zero := true }
     s.atBoundary ∧ s.atOpcode .jz ∧ s.continues (if s.zero then 6 else 5)) ∧
    (let s := allProceed 5 (wordAt 0x80 0xFE)
     s.atBoundary ∧ s.atOpcode .jz ∧ s.continues (if s.zero then 6 else 5)) := by decide

theorem witness_NopOutCycles :
    (let s := allProceed 3 (wordAt 0 0)
     s.atBoundary ∧ s.atOpcode .nop ∧ s.continues 3) ∧
    (let s := allProceed 4 (wordAt 0xE0 0)
     s.atBoundary ∧ s.atOpcode .out ∧ s.continues 4) := by decide

theorem witness_HaltCycles :
    (let s := allProceed 3 (wordAt 0xFF 0)
     s.atBoundary ∧ s.continues 3 ∧ s.atOpcode .hlt) ∧
    (let s := allProceed 3 (wordAt 0xD0 0)
     s.atBoundary ∧ s.continues 3 ∧ s.atVacantCode) := by decide

theorem witness_StepRunsDecodedInstruction :
    let s := allProceed 3 (wordAt 0x50 0xFF)
    s.atBoundary ∧ s.continues 3 ∧ decode s.params [s.opcode, s.operandByte] = .ok (.ldi 0xFF, []) :=
  ⟨by decide, by decide, rfl⟩

/-- The first micro-step of an instruction and the last of the longest. -/
theorem witness_StopLandsAfterAnyMicroStep :
    (let s := { wordAt 0xB0 0xFF with answers := [.stop] }
     s.atBoundary ∧ 0 < (cycleOps s).length ∧ s.answers = List.replicate 0 .proceed ++ .stop :: []) ∧
    (let s := allProceed 10 (wordAt 0xB0 0xFF)
     s.atBoundary ∧ 10 < (cycleOps s).length ∧ s.answers = List.replicate 10 .proceed ++ .stop :: []) := by decide

theorem witness_EndedRunDoesNothing :
    State.reset.atBoundary ∧ { State.reset with status := .cancelled, position := 4 }.status ≠ .running ∧
    { State.reset with status := .halted .hlt }.status ≠ .running := by decide

/-- Sound states of every status that a step starts from. -/
theorem witness_StepKeepsInvariant :
    (wordAt 0x40 0xFF).Inv ∧
    { wordAt 0x40 0xFF with status := .cancelled, position := 11 }.Inv ∧
    { wordAt 0xF0 0 with mem := 0xFE, pc := 0xFF, instruction := 0xF0, status := .halted .hlt }.Inv ∧
    { wordAt 0xD0 0 with mem := 0xFE, pc := 0xFF, instruction := 0xD0, status := .halted .undefinedOpcode }.Inv ∧
    { wordAt 0xE0 0 with out := 5, outSeq := [0, 5] }.Inv ∧
    after (step (wordAt 0x40 0xFF)) (fun _ => true) = true :=
  ⟨⟨by decide, rfl, .inl rfl⟩, ⟨by decide, ⟨by decide, by decide⟩, .inl rfl⟩,
    ⟨by decide, ⟨rfl, by decide, by decide⟩, .inl rfl⟩, ⟨by decide, ⟨rfl, by decide, by decide⟩, .inl rfl⟩,
    ⟨by decide, rfl, .inr rfl⟩, by decide⟩

theorem witness_InvariantAtReset : Memory.wf [(255, 1)] := by decide

/-- Each of the three ends, reached by a step. -/
theorem witness_OnlyTheseEventsEndARun :
    after (step (allProceed 0 (wordAt 0 0))) (fun t => t.status == .cancelled) = true ∧
    after (step (wordAt 0xF0 0)) (fun t => t.status == .halted .hlt) = true ∧
    after (step (wordAt 0xDF 0)) (fun t => t.status == .halted .undefinedOpcode) = true := by decide

theorem witness_OnlyStaWritesMemory :
    ((wordAt 0x10 0xFF).atBoundary ∧ after (step (wordAt 0x10 0xFF)) (fun _ => true) = true ∧
      (wordAt 0x10 0xFF).nextInstr = .lda 0xFF) ∧
    ((wordAt 0x40 0xFF).atBoundary ∧ after (step (wordAt 0x40 0xFF)) (fun _ => true) = true ∧
      (wordAt 0x40 0xFF).nextInstr = .sta 0xFF ∧ (0 : Byte) ≠ 0xFF) := by decide

theorem witness_FlagsWrittenOnlyByFlaggedCompute :
    let s := wordAt 0x10 0xFF
    s.atBoundary ∧ after (step s) (fun _ => true) = true ∧
    (∀ m ∈ [Mnemonic.add, .sub, .aei, .sei, .shl, .slf], s.nextInstr.mnemonic ≠ some m) ∧
    (nextOp s).isSome = true := by decide

theorem witness_OutWrittenOnlyByOut :
    ((wordAt 0x10 0xFF).atBoundary ∧ after (step (wordAt 0x10 0xFF)) (fun _ => true) = true ∧
      (wordAt 0x10 0xFF).nextInstr ≠ .out) ∧
    (let s := allProceed 4 (wordAt 0xE0 0)
     s.atBoundary ∧ after (step s) (fun _ => true) = true ∧ s.nextInstr = .out ∧ s.continues 4) := by decide

/-- The three taken jumps, a jump not taken, and an instruction that is no jump. -/
theorem witness_PcAfterInstruction :
    (let s := allProceed 6 (wordAt 0x60 0xFF)
     s.atBoundary ∧ s.instrContinues ∧ after (step s) (fun t => t.pc == 0xFF) = true ∧ s.nextInstr = .jmp 0xFF) ∧
    (let s := allProceed 6 { wordAt 0x70 0xFF with carry := true }
     s.atBoundary ∧ s.instrContinues ∧ after (step s) (fun t => t.pc == 0xFF) = true ∧ s.nextInstr = .jc 0xFF) ∧
    (let s := allProceed 6 { wordAt 0x80 0xFF with zero := true }
     s.atBoundary ∧ s.instrContinues ∧ after (step s) (fun t => t.pc == 0xFF) = true ∧ s.nextInstr = .jz 0xFF) ∧
    (let s := allProceed 5 (wordAt 0x80 0xFF)
     s.atBoundary ∧ s.instrContinues ∧ after (step s) (fun t => t.pc == 0) = true ∧ s.nextInstr = .jz 0xFF ∧
       s.zero = false) ∧
    (let s := allProceed 7 (wordAt 0xC0 0xFF)
     s.atBoundary ∧ s.instrContinues ∧ after (step s) (fun t => t.pc == 0xFF) = true ∧ s.nextInstr = .slf) := by decide

theorem witness_MicroStepTotals :
    let s := allProceed 11 (wordAt 0xB0 0xFF)
    s.atBoundary ∧ s.instrContinues ∧ after (step s) (fun t => t.answers == [.stop]) = true := by decide

/-- The store that hits the next opcode, and one that does not. -/
theorem witness_StoreSeenByNextFetch :
    (let s := allProceed 10 (wordAt 0x40 0)
     s.atBoundary ∧ s.memory.wf ∧ s.continues 10 ∧ s.nextInstr = .sta 0 ∧ (0 : Byte) = s.pc + 2) ∧
    (let s := allProceed 10 (wordAt 0x40 0xFF)
     s.atBoundary ∧ s.memory.wf ∧ s.continues 10 ∧ s.nextInstr = .sta 0xFF) := by decide

/-- A store into the next opcode, into the next operand byte, and to where the next `LDA` points, each right after the
store; and one step later, with a store elsewhere between. -/
theorem witness_StoreSeenByLaterAccesses :
    (let s := { allProceed 7 (wordAt 0x40 0) with a := 0x99 }
     s.atBoundary ∧ s.memory.wf ∧ s.continues 7 ∧ s.nextInstr = .sta 0) ∧
    after (core.run 1 { wordAt 0x40 0 with a := 0x99 })
      (fun u => decide (u.atBoundary ∧ u.continues 3 ∧ u.pc = 0)) = true ∧
    after (core.run 1 { wordAt 0x40 1 with a := 0x99, memory := (wordAt 0x40 1).memory.write 0 0x50 })
      (fun u => decide (u.atBoundary ∧ u.continues 7 ∧ 1 = u.pc + 1 ∧ u.atOpcode .ldi)) = true ∧
    after (core.run 1 { wordAt 0x40 0xFF with
        a := 0x99, memory := ((wordAt 0x40 0xFF).memory.write 0 0x10).write 1 0xFF })
      (fun u => decide (u.atBoundary ∧ u.continues 8 ∧ 0xFF = u.operandByte ∧ u.atOpcode .lda)) = true ∧
    after (core.run 1 { wordAt 0x40 0xFF with memory := ((wordAt 0x40 0xFF).memory.write 0 0x40).write 1 0xFE })
      (fun v => decide (v.status = .running ∧ v.nextInstr ≠ .sta 0xFF)) = true ∧
    after (core.run 2 { wordAt 0x40 0xFF with memory := ((wordAt 0x40 0xFF).memory.write 0 0x40).write 1 0xFE })
      (fun _ => true) = true := by decide

theorem witness_ScratchRegistersNeverLeak :
    let s := wordAt 0xC0 0
    s.atBoundary ∧ SameButScratch s { s with mem := 1, b := 0xFF, sum := 2, instruction := 0xF0 } ∧
    after (core.run 1 s) (fun _ => true) = true ∧
    after (core.run 1 { s with mem := 1, b := 0xFF, sum := 2, instruction := 0xF0 }) (fun _ => true) = true := by decide

theorem witness_PacingChangesNoResult : after (step (wordAt 0xC0 0)) (fun _ => true) = true := by decide

/-- An instruction whose `Sum` the switches change, and one whose `Sum` they do not. -/
theorem witness_SwitchesChangeOnlySum :
    (let s := allProceed 10 (wordAt 0x30 0xFF)
     s.atBoundary ∧ s.instrContinues ∧ after (step s) (fun _ => true) = true ∧
       after (step (s.withSwitches .likeCompute .bThenA)) (fun _ => true) = true) ∧
    (let s := allProceed 11 (wordAt 0xB0 0xFF)
     s.atBoundary ∧ s.instrContinues ∧ after (step s) (fun _ => true) = true ∧
       after (step (s.withSwitches .likeCompute .bThenA)) (fun _ => true) = true ∧ s.nextInstr = .shl 0xFF) := by decide

theorem witness_JumpToSelfHangs :
    let s := wordAt 0x60 0xFE
    s.atBoundary ∧ s.answers = [] ∧ s.atOpcode .jmp ∧ s.operandByte = s.pc := by decide

/-- A coming micro-step under either answer, and a snapshot. -/
theorem witness_SnapshotsShowRunningState :
    (let s := allProceed 0 State.reset
     s.status = .running ∧ (nextOp s).isSome = true ∧ s.answers.head? = some .stop) ∧
    (let s := allProceed 1 State.reset
     s.status = .running ∧ (nextOp s).isSome = true ∧ s.continues 1) ∧
    (snapshots 3 State.reset).length = 3 := by decide

theorem witness_ImageTextLoadsBack : (List.replicate 256 (0xA5 : Byte)).length = 256 := List.length_replicate

/-- An accepted text, and one with an empty 257th line. -/
theorem witness_LoaderAcceptsOnlyExactLines :
    (match loadImage (some (imageText (List.replicate 256 0xA5))) with
      | .ok image => decide (255 < image.length)
      | .error _ => false) = true ∧
    (match loadImage (some (imageText (List.replicate 256 0xA5) ++ ['\n'])) with
      | .ok _ => decide ((splitLines (imageText (List.replicate 256 0xA5) ++ ['\n'])).drop 256 = [[]])
      | .error _ => false) = true := by decide +kernel

/-- R70, D25: a non-empty 257th line. -/
theorem test_image_extra_line :
    isError (loadImage (some (imageText (List.replicate 256 0xA5) ++ ['x']))) .malformedImage = true := by
  decide +kernel

/-- An accepted source, with code of length 3 and a variable. -/
theorem witness_assembled :
    (match assemble OpcodeMap.standard (some "LDA v\nHLT".toList) with
      | .ok r => decide (r.codeLength = 3 ∧ r.vars = [(['v'], 255)])
      | .error _ => false) = true := by decide +kernel

/-- A tag behind an instruction and a literal. -/
theorem witness_TagAddressCountsEmittedBytes :
    (match assemble OpcodeMap.standard (some "LDA 1\n7\nt:\nHLT".toList),
        parseSource (splitLines "LDA 1\n7\nt:\nHLT".toList) with
      | .ok r, .ok [_, _, l, _] => decide (tagName l.opcode = some ['t'] ∧ Symbols.find r.tags ['t'] = some 3)
      | _, _ => false) = true := by decide +kernel

/-- The literals 0 and 255. -/
theorem witness_LiteralLinesEmitVerbatim :
    let ls : List SourceLine := [⟨['0'], none, none, none⟩, ⟨['2', '5', '5'], none, none, none⟩]
    ls.map (fun l => readDecimal l.opcode) = [0, 255].map some ∧ (∀ n ∈ [0, 255], n ≤ 255) ∧
    ∀ l ∈ ls, l.argument = none := by decide

theorem witness_OperandAdjustmentWraps : readDecimal ['3', '0', '0'] = some 300 ∧ (some ['x']).bind readDecimal = none ∧ ['^'] ∉ [['+'], ['-'], ['*']] := by
  decide

end Sys2Proof.Machine.Tests
end

section
/-! PROOFS. Every instruction as the micro-steps after its MS3 and the end of its cycle, and what a whole step does when
the host lets the instruction finish (R74). -/

namespace Sys2Proof.Machine

/-- The micro-steps of an instruction after its MS3, from the state MS3 left, with the operand byte the decoder gave it
(R91–R107). -/
def instrOps (s : State) : Instr → List MicroOp
  | .nop => []
  | .lda a => addressMode a ++ [loadA, refreshAfter false]
  | .add a => addressMode a ++ loadB :: computeIntoA false
  | .sub a => addressMode a ++ loadB :: computeIntoA true
  | .sta a => addressMode a ++ [storeA]
  | .ldi n => immediateMode ++ [setA n, refreshAfter false]
  | .jmp t => immediateMode ++ jumpIf true t
  | .jc t => immediateMode ++ jumpIf s.carry t
  | .jz t => immediateMode ++ jumpIf s.zero t
  | .aei n => immediateMode ++ setB n :: computeIntoA false
  | .sei n => immediateMode ++ setB n :: computeIntoA true
  | .shl a => addressMode a ++ (shlLoads s.params ++ computeIntoA false)
  | .slf => bFromA :: computeIntoA false
  | .undefined => []
  | .out => [outFromA]
  | .hlt => []

/-- The status an instruction that the host lets finish leaves: `HLT` and the undefined opcode halt (R106, R107). -/
def endStatus : Instr → RunStatus
  | .hlt => .halted .hlt
  | .undefined => .halted .undefinedOpcode
  | _ => .running

/-- What follows an instruction's last micro-step, unless the host stopped the run (R74, R113). -/
def closeInstr (i : Instr) (s : State) : State :=
  if s.status = .running then { s with status := endStatus i, position := 0 } else s

/-- An instruction that does not halt is closed by the end of the cycle. -/
theorem endCycle_eq_closeInstr (i : Instr) (h : endStatus i = .running) (s : State) : endCycle s = closeInstr i s := by
  unfold endCycle closeInstr
  split
  case isTrue hr => rw [h, ← hr]
  case isFalse => rfl

/-- Executing an instruction is running its micro-steps and closing it. -/
theorem exec_eq (i : Instr) (s : State) : exec i s = .next (closeInstr i (runMicro (instrOps s i) s)) := by
  cases i with
  | hlt => rfl
  | undefined => rfl
  | _ => exact congrArg Host.Outcome.next (endCycle_eq_closeInstr _ rfl _)

theorem plain_shlLoads (p : Params) : ∀ op ∈ shlLoads p, Plain op := by
  unfold shlLoads
  split <;> simp

theorem shlLoads_length (p : Params) : (shlLoads p).length = 2 := by
  unfold shlLoads
  split <;> rfl

theorem plain_jumpIf (taken : Bool) (t : Byte) : ∀ op ∈ jumpIf taken t, Plain op := by
  cases taken <;> simp [jumpIf]

/-- Every micro-step of an instruction is plain. -/
theorem plain_instrOps (s : State) (i : Instr) : ∀ op ∈ instrOps s i, Plain op := by
  cases i with
  | shl a => simpa [instrOps, addressMode, operandFetch, computeIntoA, or_imp, forall_and] using plain_shlLoads s.params
  | jmp t => simpa [instrOps, immediateMode, operandFetch] using plain_jumpIf true t
  | jc t => simpa [instrOps, immediateMode, operandFetch] using plain_jumpIf s.carry t
  | jz t => simpa [instrOps, immediateMode, operandFetch] using plain_jumpIf s.zero t
  | _ => simp [instrOps, addressMode, immediateMode, operandFetch, computeIntoA]

/-- With MS1, MS2 and MS3 an instruction has the micro-steps of the table of 40_engine.md section 7. -/
theorem microStepCount_eq (s : State) (i : Instr) :
    microStepCount s.carry s.zero i = (instrOps s i).length + 3 := by
  cases i with
  | jc t => cases h : s.carry <;> simp [instrOps, h, jumpIf, immediateMode, operandFetch, microStepCount]
  | jz t => cases h : s.zero <;> simp [instrOps, h, jumpIf, immediateMode, operandFetch, microStepCount]
  | shl a => simp [instrOps, shlLoads_length, addressMode, operandFetch, computeIntoA, microStepCount]
  | _ => rfl

theorem assignAll_append (l₁ l₂ : List MicroOp) (s : State) :
    assignAll (l₁ ++ l₂) s = assignAll l₂ (assignAll l₁ s) :=
  List.foldl_append

/-- In either order the two loads of `SHL` leave `M[Mem]` in `A` and `B` (R98). -/
theorem assignAll_shlLoads (p : Params) (s : State) :
    assignAll (shlLoads p) s = { s with a := s.memory.read s.mem, b := s.memory.read s.mem } := by
  unfold shlLoads
  split <;> rfl

/-- A step from a boundary whose fetch the host does not stop executes the instruction at `PC` (R74). -/
theorem step_eq_exec (s : State) (hb : s.atBoundary) (h : s.continues 3) : step s = exec s.nextInstr s.fetched := by
  obtain ⟨hr, hp⟩ := hb
  have hf := fetch_continues s hr h
  have hfr : s.fetched.status = .running := hr
  rw [step, if_pos hr, if_pos hp, cycle, hf, if_pos hfr]
  rfl

/-- A step from a boundary that the host lets finish: the fetch and all the instruction's assignments, one answer taken
for each, and the status the instruction ends with. -/
theorem step_eq_assignAll (s : State) (hb : s.atBoundary) (h : s.instrContinues) :
    step s = .next
      { assignAll (instrOps s.fetched s.nextInstr) s.fetched with
          status := endStatus s.nextInstr, position := 0,
          answers := s.answers.drop (microStepCount s.carry s.zero s.nextInstr) } := by
  have hlen : microStepCount s.carry s.zero s.nextInstr = (instrOps s.fetched s.nextInstr).length + 3 :=
    microStepCount_eq s.fetched s.nextInstr
  unfold State.instrContinues at h
  rw [hlen] at h ⊢
  have hplain := plain_instrOps s.fetched s.nextInstr
  have hrun : (assignAll (instrOps s.fetched s.nextInstr) s.fetched).status = .running :=
    (assignAll_status _ hplain _).trans hb.1
  rw [step_eq_exec s hb (continues_mono s _ _ h (by omega)), exec_eq,
    runMicro_continues _ hplain s.fetched hb.1 (fetched_continues s _ h), closeInstr, if_pos hrun]
  simp [State.fetched, Nat.add_comm]

end Sys2Proof.Machine
end

section
/-! PROOFS. The switches `refreshOp` and `shlOrder` (R7): which assignments read them, and what that leaves of a
completed instruction (R89, R98). -/

namespace Sys2Proof.Machine

/-- An assignment that neither reads nor writes the switches `refreshOp` and `shlOrder`. -/
def IgnoresSwitches (op : MicroOp) : Prop :=
  ∀ s r o, op (s.withSwitches r o) = (op s).withSwitches r o

@[simp] theorem ignoresSwitches_memFromPc : IgnoresSwitches memFromPc := fun _ _ _ => rfl
@[simp] theorem ignoresSwitches_pcIncrement : IgnoresSwitches pcIncrement := fun _ _ _ => rfl
@[simp] theorem ignoresSwitches_setMem (v : Byte) : IgnoresSwitches (setMem v) := fun _ _ _ => rfl
@[simp] theorem ignoresSwitches_setA (v : Byte) : IgnoresSwitches (setA v) := fun _ _ _ => rfl
@[simp] theorem ignoresSwitches_setB (v : Byte) : IgnoresSwitches (setB v) := fun _ _ _ => rfl
@[simp] theorem ignoresSwitches_setPc (v : Byte) : IgnoresSwitches (setPc v) := fun _ _ _ => rfl
@[simp] theorem ignoresSwitches_loadA : IgnoresSwitches loadA := fun _ _ _ => rfl
@[simp] theorem ignoresSwitches_loadB : IgnoresSwitches loadB := fun _ _ _ => rfl
@[simp] theorem ignoresSwitches_storeA : IgnoresSwitches storeA := fun _ _ _ => rfl
@[simp] theorem ignoresSwitches_bFromA : IgnoresSwitches bFromA := fun _ _ _ => rfl
@[simp] theorem ignoresSwitches_aFromSum : IgnoresSwitches aFromSum := fun _ _ _ => rfl
@[simp] theorem ignoresSwitches_outFromA : IgnoresSwitches outFromA := fun _ _ _ => rfl
@[simp] theorem ignoresSwitches_flaggedCompute (sub : Bool) : IgnoresSwitches (flaggedCompute sub) := fun _ _ _ => rfl

/-- Where the compute added, the refresh adds, whatever `refreshOp` is (R89). -/
theorem refreshSubtracts_false (p : Params) : refreshSubtracts p false = false := by
  unfold refreshSubtracts
  split <;> rfl

@[simp] theorem ignoresSwitches_refreshAfter_false : IgnoresSwitches (refreshAfter false) := by
  intro s r o
  simp only [refreshAfter, refreshSubtracts_false]
  rfl

theorem ignoresSwitches_jumpIf (taken : Bool) (t : Byte) : ∀ op ∈ jumpIf taken t, IgnoresSwitches op := by
  cases taken <;> simp [jumpIf]

/-- Assignments that ignore the switches do so in a row. -/
theorem assignAll_withSwitches (ops : List MicroOp) (h : ∀ op ∈ ops, IgnoresSwitches op) (s : State) (r : RefreshOp)
    (o : ShlOrder) : assignAll ops (s.withSwitches r o) = (assignAll ops s).withSwitches r o := by
  induction ops generalizing s with
  | nil => rfl
  | cons op rest ih =>
    rw [assignAll_cons, assignAll_cons, h op (by simp), ih (fun p hp => h p (by simp [hp]))]

/-- The second state differs from the first at most in `Sum` and the parameters, and in `Sum` only if the instruction is
SUB or SEI. -/
def SameButSumOf (i : Instr) (s t : State) : Prop :=
  t = { s with sum := t.sum, params := t.params } ∧ ((∀ x, i ≠ .sub x ∧ i ≠ .sei x) → t.sum = s.sum)

theorem sameButSumOf_withSwitches (i : Instr) (s : State) (r : RefreshOp) (o : ShlOrder) :
    SameButSumOf i s (s.withSwitches r o) :=
  ⟨rfl, fun _ => rfl⟩

/-- A refresh after a subtraction, behind assignments that ignore the switches, differs in `Sum` alone (R89). -/
theorem sameButSumOf_refreshLast (i : Instr) (x : Byte) (hi : i = .sub x ∨ i = .sei x) (ops : List MicroOp)
    (h : ∀ op ∈ ops, IgnoresSwitches op) (s : State) (r : RefreshOp) (o : ShlOrder) :
    SameButSumOf i (assignAll (ops ++ [refreshAfter true]) s)
      (assignAll (ops ++ [refreshAfter true]) (s.withSwitches r o)) := by
  rw [assignAll_append, assignAll_append, assignAll_withSwitches ops h]
  refine ⟨rfl, fun hn => ?_⟩
  rcases hi with rfl | rfl
  · exact absurd rfl (hn x).1
  · exact absurd rfl (hn x).2

/-- All the assignments of `SHL`, under other switches: the order of its two loads does not show (R98). -/
theorem assignAll_shl_withSwitches (a : Byte) (s : State) (r : RefreshOp) (o : ShlOrder) :
    assignAll (instrOps (s.withSwitches r o) (.shl a)) (s.withSwitches r o) =
      (assignAll (instrOps s (.shl a)) s).withSwitches r o := by
  simp only [instrOps, assignAll_append, assignAll_shlLoads]
  exact assignAll_withSwitches (computeIntoA false) (by simp [computeIntoA])
    { assignAll (addressMode a) s with a := s.memory.read a, b := s.memory.read a } r o

/-- An instruction's assignments under other switches differ at most in the `Sum` of SUB and SEI. -/
theorem assignAll_instrOps_sameButSumOf (i : Instr) (s : State) (r : RefreshOp) (o : ShlOrder) :
    SameButSumOf i (assignAll (instrOps s i) s) (assignAll (instrOps (s.withSwitches r o) i) (s.withSwitches r o)) := by
  have of_ignores (ops : List MicroOp) (h : ∀ op ∈ ops, IgnoresSwitches op) :
      SameButSumOf i (assignAll ops s) (assignAll ops (s.withSwitches r o)) := by
    rw [assignAll_withSwitches ops h]
    exact sameButSumOf_withSwitches i _ r o
  cases i with
  | sub a =>
    exact sameButSumOf_refreshLast _ a (.inl rfl) (addressMode a ++ [loadB, flaggedCompute true, aFromSum])
      (by simp [addressMode, operandFetch]) s r o
  | sei n =>
    exact sameButSumOf_refreshLast _ n (.inr rfl) (immediateMode ++ [setB n, flaggedCompute true, aFromSum])
      (by simp [immediateMode, operandFetch]) s r o
  | shl a =>
    rw [assignAll_shl_withSwitches]
    exact sameButSumOf_withSwitches _ _ r o
  | jmp t => exact of_ignores _ (by simpa [instrOps, immediateMode, operandFetch] using ignoresSwitches_jumpIf true t)
  | jc t =>
    exact of_ignores (instrOps s (.jc t))
      (by simpa [instrOps, immediateMode, operandFetch] using ignoresSwitches_jumpIf s.carry t)
  | jz t =>
    exact of_ignores (instrOps s (.jz t))
      (by simpa [instrOps, immediateMode, operandFetch] using ignoresSwitches_jumpIf s.zero t)
  | _ => exact of_ignores _ (by simp [instrOps, addressMode, immediateMode, operandFetch, computeIntoA])

/-- The relation does not depend on what an instruction's end sets alike in both states. -/
theorem SameButSumOf.ended {i : Instr} {s t : State} (h : SameButSumOf i s t) (st : RunStatus) (n : Nat)
    (l : List HostAnswer) :
    SameButSumOf i { s with status := st, position := n, answers := l }
      { t with status := st, position := n, answers := l } := by
  obtain ⟨ht, hsum⟩ := h
  exact ⟨by rw [ht], hsum⟩

/-- Settles O49: of the assignments only the refresh after a subtraction reads `refreshOp`, `shlOrder` only orders the
two loads of SHL, and the loads leave the same state in either order. -/
theorem switchesChangeOnlySum : Obligations.SwitchesChangeOnlySum := by
  intro s t t' r o hb hc ht ht'
  rw [step_eq_assignAll s hb hc] at ht
  rw [step_eq_assignAll (s.withSwitches r o) hb hc] at ht'
  obtain rfl := Host.Outcome.next.inj ht
  obtain rfl := Host.Outcome.next.inj ht'
  exact (assignAll_instrOps_sameButSumOf s.nextInstr s.fetched r o).ended _ _ _

end Sys2Proof.Machine
end

section
/-! PROOFS. A step from a boundary as one run of micro-steps, however the host answers, and what a step then keeps
(R74, R76). -/

namespace Sys2Proof.Machine

theorem closeInstr_of_ended (i : Instr) (s : State) (h : s.status ≠ .running) : closeInstr i s = s :=
  if_neg h

/-- The micro-steps of an instruction depend on the flags and the parameters alone. -/
theorem instrOps_congr (s t : State) (hc : t.carry = s.carry) (hz : t.zero = s.zero) (hp : t.params = s.params)
    (i : Instr) : instrOps t i = instrOps s i := by
  cases i <;> simp only [instrOps, hc, hz, hp]

/-- A fetch changes nothing the micro-steps of an instruction depend on. -/
theorem instrOps_fetch (s : State) (i : Instr) : instrOps (fetch s) i = instrOps s i := by
  obtain ⟨-, -, -, -, hz, hc, -, -, hp⟩ := fetch_frame s
  exact instrOps_congr s (fetch s) hc hz hp i

/-- A fetch that the host does not stop has the instruction at `PC` to execute (R77, R78). -/
theorem fetchedInstr_fetch (s : State) (hr : s.status = .running) (hf : (fetch s).status = .running) :
    fetchedInstr (fetch s) = s.nextInstr := by
  obtain ⟨-, -, -, -, -, -, hm, -, hp⟩ := fetch_frame s
  obtain ⟨-, hpc, hi, -⟩ := fetch_running s hr hf
  rw [fetchedInstr, hm, hp, hpc, hi]

/-- Every micro-step of the fetch and of an instruction is plain. -/
theorem plain_fetch_instrOps (s : State) (i : Instr) : ∀ op ∈ fetchOps ++ instrOps s i, Plain op := by
  intro op hop
  rcases List.mem_append.1 hop with h | h
  · exact plain_cycleOps s op (List.mem_append_left _ h)
  · exact plain_instrOps s i op h

/-- A step from a boundary is one run of micro-steps, those of the fetch and of the instruction at `PC`, and the end of
that instruction, wherever in the run the host stops it. -/
theorem step_eq_closeInstr (s : State) (hb : s.atBoundary) :
    step s = .next (closeInstr s.nextInstr (runMicro (fetchOps ++ instrOps s s.nextInstr) s)) := by
  obtain ⟨hr, hp⟩ := hb
  have hrun : runMicro (fetchOps ++ instrOps s s.nextInstr) s = runMicro (instrOps s s.nextInstr) (fetch s) :=
    runMicro_append _ _ s
  rw [step, if_pos hr, if_pos hp, cycle, hrun]
  by_cases hf : (fetch s).status = .running
  · rw [if_pos hf, exec_eq, fetchedInstr_fetch s hr hf, instrOps_fetch]
  · rw [if_neg hf, runMicro_ended _ _ hf, closeInstr_of_ended _ _ hf]

/-- An engine that is not `Running` stays as it is (R73). -/
theorem step_of_ended (s : State) (h : s.status ≠ .running) : step s = .next s :=
  if_neg h

/-- An engine that is `Running` is at a boundary. -/
def BetweenSteps (s : State) : Prop := s.status = .running → s.position = 0

theorem betweenSteps_closeInstr (i : Instr) (s : State) : BetweenSteps (closeInstr i s) := by
  unfold closeInstr
  split
  case isTrue => exact fun _ => rfl
  case isFalse hr => exact fun h => absurd h hr

/-- Steps that start at a boundary never leave a `Running` engine inside an instruction (R25). -/
theorem step_keeps_betweenSteps (s t : State) (hs : BetweenSteps s) (h : step s = .next t) : BetweenSteps t := by
  by_cases hr : s.status = .running
  · rw [step_eq_closeInstr s ⟨hr, hs hr⟩] at h
    obtain rfl := Host.Outcome.next.inj h
    exact betweenSteps_closeInstr _ _
  · rw [step_of_ended s hr] at h
    obtain rfl := Host.Outcome.next.inj h
    exact hs

/-- A property of states that no assignment of the step disturbs, and that says nothing of the position, the answers
and the status, survives a step from a boundary, however the host answers. -/
theorem step_keeps (P : State → Prop) (s t : State) (hb : s.atBoundary) (ht : step s = .next t)
    (hop : ∀ op ∈ fetchOps ++ instrOps s s.nextInstr, ∀ u, P u → P (op u))
    (hany : ∀ u n l st, P u → P { u with position := n, answers := l, status := st }) (h : P s) : P t := by
  rw [step_eq_closeInstr s hb] at ht
  obtain rfl := Host.Outcome.next.inj ht
  have hrun := runMicro_keeps P _ hop hany s h
  unfold closeInstr
  split
  case isTrue => exact hany _ 0 _ (endStatus s.nextInstr) hrun
  case isFalse => exact hrun

/-- An assignment leaves alone what `f` reads of a state. -/
def Leaves {α : Type} (f : State → α) (op : MicroOp) : Prop := ∀ u, f (op u) = f u

/-- A step from a boundary leaves alone what the assignments of the fetch and of its instruction leave alone, however the
host answers. -/
theorem step_leaves {α : Type} (f : State → α) (s t : State) (hb : s.atBoundary) (ht : step s = .next t)
    (hfetch : ∀ op ∈ fetchOps, Leaves f op) (hinstr : ∀ op ∈ instrOps s s.nextInstr, Leaves f op)
    (hany : ∀ u n l st, f { u with position := n, answers := l, status := st } = f u) : f t = f s := by
  refine step_keeps (fun u => f u = f s) s t hb ht ?_ (fun u n l st h => (hany u n l st).trans h) rfl
  intro op hop u hu
  have hop' : Leaves f op := (List.mem_append.1 hop).elim (hfetch op) (hinstr op)
  exact (hop' u).trans hu

end Sys2Proof.Machine
end

section
/-! PROOFS. `Mem`, `B`, `Sum` and `Instruction` carry nothing from one instruction to the next (R13, R14, R27): every
instruction writes those it reads, before it reads them. -/

namespace Sys2Proof.Machine

/-- The state with other values in `Mem`, `B`, `Sum` and `Instruction`. -/
def State.withScratch (m b v i : Byte) (s : State) : State :=
  { s with mem := m, b := b, sum := v, instruction := i }

theorem sameButScratch_iff (s t : State) : SameButScratch s t ↔ ∃ m b v i, t = s.withScratch m b v i := by
  constructor
  · exact fun h => ⟨_, _, _, _, h⟩
  · rintro ⟨m, b, v, i, rfl⟩
    rfl

/-- Beside the scratch registers, two states still agree after the same change of the position, the answers and the
status. -/
theorem SameButScratch.set {s t : State} (h : SameButScratch s t) (n : Nat) (l : List HostAnswer) (st : RunStatus) :
    SameButScratch { s with position := n, answers := l, status := st }
      { t with position := n, answers := l, status := st } := by
  obtain ⟨m, b, v, i, rfl⟩ := (sameButScratch_iff s t).1 h
  rfl

/-- Two states agree beside the scratch registers before and after each of the assignments. -/
def AgreeAlong : List MicroOp → State → State → Prop
  | [], s, t => SameButScratch s t
  | op :: rest, s, t => SameButScratch s t ∧ AgreeAlong rest (op s) (op t)

/-- Assignments do not see the position, the answers and the status. -/
theorem AgreeAlong.set {ops : List MicroOp} (hp : ∀ op ∈ ops, Plain op) {s t : State} (h : AgreeAlong ops s t)
    (n : Nat) (l : List HostAnswer) (st : RunStatus) :
    AgreeAlong ops { s with position := n, answers := l, status := st }
      { t with position := n, answers := l, status := st } := by
  induction ops generalizing s t with
  | nil => exact SameButScratch.set h n l st
  | cons op rest ih =>
    obtain ⟨hst, hrest⟩ := h
    have hop := hp op (by simp)
    refine ⟨SameButScratch.set hst n l st, ?_⟩
    rw [hop.commutes s, hop.commutes t]
    exact ih (fun o ho => hp o (by simp [ho])) hrest

/-- A micro-step is its assignment, the position moved on, and one answer taken, which may be `Stop` (R75, R76). -/
theorem microStep_eq (op : MicroOp) (hp : Plain op) (s : State) :
    microStep op s =
      { op s with
          position := s.position + 1, answers := s.answers.tail,
          status := if s.answers.head? = some .stop then .cancelled else s.status } := by
  have ha := hp.answers s
  have hst := hp.status s
  unfold microStep State.emit
  simp only [ha]
  cases hs : s.answers with
  | nil =>
    have ha' := ha.trans hs
    generalize op s = u at ha' hst
    cases u
    subst ha' hst
    rfl
  | cons x rest => cases x <;> simp [hst]

/-- Two runs of micro-steps that agree along their assignments end alike beside the scratch registers, wherever the host
stops them. -/
theorem runMicro_agrees (ops : List MicroOp) (hp : ∀ op ∈ ops, Plain op) (s t : State) (h : AgreeAlong ops s t) :
    SameButScratch (runMicro ops s) (runMicro ops t) := by
  induction ops generalizing s t with
  | nil => exact h
  | cons op rest ih =>
    obtain ⟨hst, hrest⟩ := h
    have hop := hp op (by simp)
    have hp' : ∀ o ∈ rest, Plain o := fun o ho => hp o (by simp [ho])
    obtain ⟨m, b, v, i, rfl⟩ := (sameButScratch_iff s t).1 hst
    by_cases hr : s.status = .running
    · rw [runMicro_cons _ _ _ hr, runMicro_cons _ _ (s.withScratch m b v i) hr, microStep_eq op hop s,
        microStep_eq op hop (s.withScratch m b v i)]
      exact ih hp' _ _ (hrest.set hp' _ _ _)
    · rw [runMicro_ended _ _ hr, runMicro_ended _ (s.withScratch m b v i) hr]
      rfl

/-- Agreement along one list of assignments and then along another. -/
theorem AgreeAlong.append {l₁ l₂ : List MicroOp} {s t : State} (h₁ : AgreeAlong l₁ s t)
    (h₂ : AgreeAlong l₂ (assignAll l₁ s) (assignAll l₁ t)) : AgreeAlong (l₁ ++ l₂) s t := by
  induction l₁ generalizing s t with
  | nil => exact h₂
  | cons op rest ih => exact ⟨h₁.1, ih h₁.2 h₂⟩

/-- MS1 writes the address that MS3 reads `Instruction` from. -/
theorem agreeAlong_fetchOps (m b v w : Byte) (s : State) : AgreeAlong fetchOps s (s.withScratch m b v w) :=
  ⟨rfl, rfl, rfl, rfl⟩

theorem agreeAlong_operandFetch (m b v w : Byte) (s : State) : AgreeAlong operandFetch s (s.withScratch m b v w) :=
  ⟨rfl, rfl, rfl⟩

theorem agreeAlong_addressMode (x m b v w : Byte) (s : State) :
    AgreeAlong (addressMode x) s (s.withScratch m b v w) :=
  ⟨rfl, rfl, rfl, rfl⟩

theorem agreeAlong_jumpIf (taken : Bool) (x m b v w : Byte) (s : State) :
    AgreeAlong (jumpIf taken x) s (s.withScratch m b v w) := by
  cases taken
  · exact rfl
  · exact ⟨rfl, rfl⟩

/-- Once `B` is the same, the flagged compute writes the `Sum` that `A` then takes. -/
theorem agreeAlong_computeIntoA (sub : Bool) (m v w : Byte) (s : State) :
    AgreeAlong (computeIntoA sub) s (s.withScratch m s.b v w) :=
  ⟨rfl, rfl, rfl, rfl⟩

/-- Once `Mem` is the same, the loads of `SHL` write the `A` and the `B` that its compute reads, in either order. -/
theorem agreeAlong_shl (p : Params) (b v w : Byte) (s : State) :
    AgreeAlong (shlLoads p ++ computeIntoA false) s (s.withScratch s.mem b v w) := by
  unfold shlLoads
  split
  · exact ⟨rfl, rfl, agreeAlong_computeIntoA false s.mem v w (loadB (loadA s))⟩
  · exact ⟨rfl, rfl, agreeAlong_computeIntoA false s.mem v w (loadA (loadB s))⟩

/-- Every instruction writes `Mem` in its operand fetch before a load or a store reads it, `B` before the compute, and
`Sum` in the compute before `A` takes it. -/
theorem agreeAlong_instrOps (i : Instr) (m b v w : Byte) (s : State) :
    AgreeAlong (instrOps s i) s (s.withScratch m b v w) := by
  have address (x : Byte) := agreeAlong_addressMode x m b v w s
  have immediate := agreeAlong_operandFetch m b v w s
  cases i with
  | nop | undefined | hlt => exact rfl
  | out => exact ⟨rfl, rfl⟩
  | lda x => exact (address x).append ⟨rfl, rfl, rfl⟩
  | ldi x => exact immediate.append ⟨rfl, rfl, rfl⟩
  | sta x => exact (address x).append ⟨rfl, rfl⟩
  | add x | sub x => exact (address x).append ⟨rfl, agreeAlong_computeIntoA _ _ _ _ _⟩
  | aei x | sei x => exact immediate.append ⟨rfl, agreeAlong_computeIntoA _ _ _ _ _⟩
  | shl x => exact (address x).append (agreeAlong_shl _ _ _ _ _)
  | slf => exact ⟨rfl, agreeAlong_computeIntoA _ _ _ _ _⟩
  | jmp x | jc x | jz x => exact immediate.append (agreeAlong_jumpIf _ _ _ _ _ _ _)

/-- All the micro-steps of a cycle, with the instruction's chosen before the fetch. -/
theorem agreeAlong_fetch_instrOps (i : Instr) (m b v w : Byte) (s : State) :
    AgreeAlong (fetchOps ++ instrOps s i) s (s.withScratch m b v w) :=
  (agreeAlong_fetchOps m b v w s).append (agreeAlong_instrOps i _ _ _ _ (assignAll fetchOps s))

/-- The end of an instruction keeps two states alike beside the scratch registers. -/
theorem SameButScratch.closeInstr {s t : State} (h : SameButScratch s t) (i : Instr) :
    SameButScratch (closeInstr i s) (closeInstr i t) := by
  obtain ⟨m, b, v, w, rfl⟩ := (sameButScratch_iff s t).1 h
  by_cases hr : s.status = .running
  · rw [Machine.closeInstr, Machine.closeInstr, if_pos hr, if_pos (show (s.withScratch m b v w).status = _ from hr)]
    rfl
  · rw [closeInstr_of_ended i s hr, closeInstr_of_ended i (s.withScratch m b v w) hr]
    exact h

/-- One step keeps two states alike beside the scratch registers. -/
theorem step_sameButScratch (s₁ s₂ t₁ t₂ : State) (hs : BetweenSteps s₁) (h : SameButScratch s₁ s₂)
    (h₁ : step s₁ = .next t₁) (h₂ : step s₂ = .next t₂) : SameButScratch t₁ t₂ := by
  obtain ⟨m, b, v, w, rfl⟩ := (sameButScratch_iff s₁ s₂).1 h
  by_cases hr : s₁.status = .running
  · have hb : s₁.atBoundary := ⟨hr, hs hr⟩
    rw [step_eq_closeInstr _ hb] at h₁
    rw [step_eq_closeInstr (s₁.withScratch m b v w) hb] at h₂
    obtain rfl := Host.Outcome.next.inj h₁
    obtain rfl := Host.Outcome.next.inj h₂
    have hrun := runMicro_agrees _ (plain_fetch_instrOps s₁ s₁.nextInstr) s₁ _
      (agreeAlong_fetch_instrOps s₁.nextInstr m b v w s₁)
    exact hrun.closeInstr s₁.nextInstr
  · rw [step_of_ended _ hr] at h₁
    rw [step_of_ended (s₁.withScratch m b v w) hr] at h₂
    obtain rfl := Host.Outcome.next.inj h₁
    obtain rfl := Host.Outcome.next.inj h₂
    exact h

/-- Settles O47: two engines that agree beside the scratch registers still do after a step, since the fetch and the
instruction write each scratch register they read before they read it; by induction on the number of steps. -/
theorem scratchRegistersNeverLeak : Obligations.ScratchRegistersNeverLeak := by
  intro k s₁ s₂ t₁ t₂ hb h h₁ h₂
  have hs : BetweenSteps s₁ := fun _ => hb.2
  clear hb
  induction k generalizing s₁ s₂ with
  | zero =>
    obtain rfl := Host.Outcome.next.inj h₁
    obtain rfl := Host.Outcome.next.inj h₂
    exact h
  | succ k ih =>
    obtain ⟨u₁, hu₁, hrun₁⟩ := core_run_succ k s₁ t₁ h₁
    obtain ⟨u₂, hu₂, hrun₂⟩ := core_run_succ k s₂ t₂ h₂
    have hu := step_sameButScratch s₁ s₂ u₁ u₂ hs h hu₁ hu₂
    exact ih u₁ u₂ hu hrun₁ hrun₂ (step_keeps_betweenSteps s₁ u₁ hs hu₁)

end Sys2Proof.Machine
end

section
/-! PROOFS. The assignments that a micro-step can be, and the events that end a run (R23, R113, R114). -/

namespace Sys2Proof.Machine

/-! ### The assignments of the pseudocode -/

/-- The assignments that a micro-step of the pseudocode can be (R74). -/
def assignments : List MicroOp :=
  [memFromPc, pcIncrement, loadInstruction, derefMem, loadA, loadB, storeA, loadPc, bFromA, aFromSum, outFromA,
    flaggedCompute false, flaggedCompute true, refreshAfter false, refreshAfter true]

theorem plain_assignments : ∀ op ∈ assignments, Plain op := by
  simp [assignments]

theorem fetchOps_subset : fetchOps ⊆ assignments := by
  simp [fetchOps, assignments]

theorem operandOps_subset (m : Mnemonic) : operandOps m ⊆ assignments := by
  unfold operandOps
  split <;> simp [assignments]

theorem executeOps_subset (s : State) (m : Mnemonic) : executeOps s m ⊆ assignments := by
  cases m <;> simp only [executeOps]
  case jc | jz | shl => split <;> simp [assignments]
  all_goals simp [assignments]

theorem decodedOps_subset (s : State) : decodedOps s ⊆ assignments := by
  unfold decodedOps
  split
  · exact List.append_subset_of_subset_of_subset (operandOps_subset _) (executeOps_subset s _)
  · simp

theorem nextOp_mem_assignments (s : State) (op : MicroOp) (h : nextOp s = some op) : op ∈ assignments := by
  have hsub := List.append_subset_of_subset_of_subset fetchOps_subset (decodedOps_subset s)
  exact hsub (List.mem_of_getElem? h)

/-! ### The end of a run -/

/-- A run that stands at `s` and then at `t` has ended in between only by a `Stop`, by `HLT` or by an undefined opcode,
each with its status. -/
def EndsByEvent (s t : State) : Prop :=
  (t.status = .cancelled → s.status = .cancelled ∨ .stop ∈ s.answers) ∧
  (t.status = .halted .hlt →
    s.status = .halted .hlt ∨ (s.status = .running ∧ decodeOpcode t.params t.instruction = some .hlt)) ∧
  (t.status = .halted .undefinedOpcode →
    s.status = .halted .undefinedOpcode ∨ (s.status = .running ∧ decodeOpcode t.params t.instruction = none))

theorem EndsByEvent.refl (s : State) : EndsByEvent s s :=
  ⟨.inl, .inl, .inl⟩

theorem EndsByEvent.of_running {s t : State} (h : t.status = .running) : EndsByEvent s t := by
  simp [EndsByEvent, h]

theorem EndsByEvent.of_stop {s t : State} (h : t.status = .cancelled) (hs : .stop ∈ s.answers) : EndsByEvent s t := by
  simp [EndsByEvent, h, hs]

theorem EndsByEvent.of_hlt {s t : State} (hr : s.status = .running) (h : t.status = .halted .hlt)
    (hd : decodeOpcode t.params t.instruction = some .hlt) : EndsByEvent s t := by
  simp [EndsByEvent, hr, h, hd]

theorem EndsByEvent.of_undefined {s t : State} (hr : s.status = .running) (h : t.status = .halted .undefinedOpcode)
    (hd : decodeOpcode t.params t.instruction = none) : EndsByEvent s t := by
  simp [EndsByEvent, hr, h, hd]

/-- A run that has not ended at `u` ends after it as it ends after `s`. -/
theorem EndsByEvent.trans_running {s u t : State} (hs : s.status = .running) (hu : u.status = .running)
    (ha : u.answers ⊆ s.answers) (h : EndsByEvent u t) : EndsByEvent s t := by
  obtain ⟨hc, hh, hud⟩ := h
  simp only [hu, reduceCtorEq, false_or, true_and] at hc hh hud
  exact ⟨fun ht => .inr (ha (hc ht)), fun ht => .inr ⟨hs, hh ht⟩, fun ht => .inr ⟨hs, hud ht⟩⟩

/-- What `settle` can do: nothing, the end of the cycle, or a halt that `Instruction` gives the reason of. -/
theorem settle_cases (s : State) :
    settle s = s ∨ settle s = endCycle s ∨
    (settle s = haltRun .hlt s ∧ decodeOpcode s.params s.instruction = some .hlt) ∨
    (settle s = haltRun .undefinedOpcode s ∧ decodeOpcode s.params s.instruction = none) := by
  unfold settle
  split
  · exact .inl rfl
  · split
    · exact .inr (.inr (.inr ⟨rfl, ‹_›⟩))
    · exact .inr (.inr (.inl ⟨rfl, ‹_›⟩))
    · split
      · exact .inl rfl
      · exact .inr (.inl rfl)

theorem endCycle_status (s : State) : (endCycle s).status = s.status := by
  unfold endCycle
  split <;> rfl

theorem endCycle_answers (s : State) : (endCycle s).answers = s.answers := by
  unfold endCycle
  split <;> rfl

theorem haltRun_answers (r : HaltReason) (s : State) : (haltRun r s).answers = s.answers := by
  unfold haltRun
  split <;> rfl

theorem settle_answers (s : State) : (settle s).answers = s.answers := by
  rcases settle_cases s with h | h | ⟨h, -⟩ | ⟨h, -⟩ <;> rw [h]
  · exact endCycle_answers s
  · exact haltRun_answers _ s
  · exact haltRun_answers _ s

/-- Nothing follows a micro-step that the host stopped (R76). -/
theorem settle_of_ended (s : State) (h : s.status ≠ .running) : settle s = s := by
  rcases settle_cases s with hs | hs | ⟨hs, -⟩ | ⟨hs, -⟩
  · exact hs
  · exact hs.trans (if_neg h)
  · exact hs.trans (if_neg h)
  · exact hs.trans (if_neg h)

theorem endsByEvent_settle (s : State) (hr : s.status = .running) : EndsByEvent s (settle s) := by
  have hhalt (reason : HaltReason) : haltRun reason s = { s with status := .halted reason, position := 0 } := if_pos hr
  rcases settle_cases s with h | h | ⟨h, hd⟩ | ⟨h, hd⟩ <;> rw [h]
  · exact .refl s
  · exact .of_running ((endCycle_status s).trans hr)
  · rw [hhalt]
    exact .of_hlt hr rfl hd
  · rw [hhalt]
    exact .of_undefined hr rfl hd

theorem microStep_answers_subset (op : MicroOp) (hp : Plain op) (s : State) :
    (microStep op s).answers ⊆ s.answers := by
  rw [microStep_answers op hp s]
  exact List.tail_subset _

/-- What `micro` can do: nothing in an ended run, else the coming micro-step and what follows it, or the end of the
cycle. -/
theorem micro_cases (s : State) :
    (s.status ≠ .running ∧ micro s = s) ∨
    (s.status = .running ∧ ∃ op, Plain op ∧ micro s = settle (microStep op s)) ∨
    (s.status = .running ∧ micro s = endCycle s) := by
  unfold micro
  split
  · split
    · exact .inr (.inl ⟨‹_›, _, plain_assignments _ (nextOp_mem_assignments s _ ‹_›), rfl⟩)
    · exact .inr (.inr ⟨‹_›, rfl⟩)
  · exact .inl ⟨‹_›, rfl⟩

theorem micro_answers_subset (s : State) : (micro s).answers ⊆ s.answers := by
  rcases micro_cases s with ⟨-, h⟩ | ⟨-, op, hp, h⟩ | ⟨-, h⟩ <;> rw [h]
  · exact List.Subset.refl _
  · rw [settle_answers]
    exact microStep_answers_subset op hp s
  · rw [endCycle_answers]
    exact List.Subset.refl _

theorem endsByEvent_micro (s : State) : EndsByEvent s (micro s) := by
  rcases micro_cases s with ⟨-, h⟩ | ⟨hr, op, hp, h⟩ | ⟨hr, h⟩ <;> rw [h]
  · exact .refl s
  · rcases microStep_status op hp s hr with hu | ⟨hu, hstop⟩
    · exact (endsByEvent_settle _ hu).trans_running hr hu (microStep_answers_subset op hp s)
    · rw [settle_of_ended _ (by simp [hu])]
      exact .of_stop hu (List.mem_of_mem_head? hstop)
  · exact .of_running ((endCycle_status s).trans hr)

/-- A run that goes on after a micro-step was going on before it. -/
theorem running_of_micro_running (s : State) (h : (micro s).status = .running) : s.status = .running := by
  rcases micro_cases s with ⟨-, hm⟩ | ⟨hr, -⟩ | ⟨hr, -⟩
  · rwa [hm] at h
  · exact hr
  · exact hr

theorem endsByEvent_finish (fuel : Nat) (s : State) : EndsByEvent s (finish fuel s) := by
  induction fuel generalizing s with
  | zero => exact .refl s
  | succ fuel ih =>
    simp only [finish]
    split
    case isTrue hm =>
      exact (ih (micro s)).trans_running (running_of_micro_running s hm.1) hm.1 (micro_answers_subset s)
    case isFalse => exact endsByEvent_micro s

/-- An instruction that halts has no micro-step of its own (R87). -/
theorem instrOps_of_halting (s : State) (i : Instr) (r : HaltReason) (h : endStatus i = .halted r) :
    instrOps s i = [] := by
  cases i with
  | hlt | undefined => rfl
  | _ => simp [endStatus] at h

/-- A decoded instruction leaves the engine `Running`, or halts it with the reason its opcode byte gives. -/
theorem endStatus_decodePair (p : Params) (o x : Byte) :
    endStatus (decodePair p o x) = .running ∨
    (endStatus (decodePair p o x) = .halted .hlt ∧ decodeOpcode p o = some .hlt) ∨
    (endStatus (decodePair p o x) = .halted .undefinedOpcode ∧ decodeOpcode p o = none) := by
  unfold decodePair
  cases decodeOpcode p o with
  | none => exact .inr (.inr ⟨rfl, rfl⟩)
  | some m =>
    cases m with
    | hlt => exact .inr (.inl ⟨rfl, rfl⟩)
    | _ => exact .inl rfl

/-- After a fetch that the host does not stop, the opcode byte decodes as it did in memory. -/
theorem decodeOpcode_fetch (s : State) (hr : s.status = .running) (hf : (fetch s).status = .running) :
    decodeOpcode (fetch s).params (fetch s).instruction = decodeOpcode s.params s.opcode := by
  obtain ⟨-, -, -, -, -, -, -, -, hp⟩ := fetch_frame s
  obtain ⟨-, -, hi, -⟩ := fetch_running s hr hf
  rw [hp, hi]

theorem endsByEvent_closeInstr (s : State) (hr : s.status = .running) :
    EndsByEvent s (closeInstr s.nextInstr (runMicro (fetchOps ++ instrOps s s.nextInstr) s)) := by
  rcases runMicro_status _ (plain_fetch_instrOps s s.nextInstr) s hr with hrun | ⟨hc, -, -, hstop⟩
  · rw [closeInstr, if_pos hrun]
    have halting (reason : HaltReason) (h : endStatus s.nextInstr = .halted reason) :
        runMicro (fetchOps ++ instrOps s s.nextInstr) s = fetch s := by
      rw [instrOps_of_halting s _ reason h, List.append_nil, fetch]
    rcases endStatus_decodePair s.params s.opcode s.operandByte with h | ⟨h, hd⟩ | ⟨h, hd⟩
    · exact .of_running h
    · rw [halting _ h] at hrun ⊢
      exact .of_hlt hr h ((decodeOpcode_fetch s hr hrun).trans hd)
    · rw [halting _ h] at hrun ⊢
      exact .of_undefined hr h ((decodeOpcode_fetch s hr hrun).trans hd)
  · rw [closeInstr_of_ended _ _ (by simp [hc])]
    exact .of_stop hc hstop

/-- Settles O40: an ended engine stays as it is; from a boundary the run of the cycle's micro-steps is `Cancelled` only
by a `Stop`, and only its end halts; inside an instruction each micro-step ends the run by one of the three events. -/
theorem onlyTheseEventsEndARun : Obligations.OnlyTheseEventsEndARun := by
  intro s t ht
  change EndsByEvent s t
  by_cases hr : s.status = .running
  · by_cases hp : s.position = 0
    · rw [step_eq_closeInstr s ⟨hr, hp⟩] at ht
      obtain rfl := Host.Outcome.next.inj ht
      exact endsByEvent_closeInstr s hr
    · rw [step, if_pos hr, if_neg hp] at ht
      obtain rfl := Host.Outcome.next.inj ht
      exact endsByEvent_finish longestCycle s
  · rw [step_of_ended s hr] at ht
    obtain rfl := Host.Outcome.next.inj ht
    exact .refl s

end Sys2Proof.Machine
end

section
/-! PROOFS. What writes the flags, `Out` and `PC`, and what they hold at reset (R17, R18, R21, R26). -/

namespace Sys2Proof.Machine

/-! ### The flags (R21) -/

/-- Both flags of a state. -/
def State.flags (s : State) : Flags := { zero := s.zero, carry := s.carry }

theorem flags_eq_iff (s t : State) : s.flags = t.flags ↔ s.zero = t.zero ∧ s.carry = t.carry := by
  simp [State.flags]

/-- Of the assignments only the flagged compute writes a flag. -/
theorem assignments_leave_flags : ∀ op ∈ assignments, (∃ sub, op = flaggedCompute sub) ∨ Leaves State.flags op := by
  simp [assignments, Leaves, State.flags]

theorem fetchOps_leave_flags : ∀ op ∈ fetchOps, Leaves State.flags op := by
  simp [fetchOps, Leaves, State.flags]

theorem instrOps_leave_flags (s : State) (i : Instr)
    (h : ∀ m ∈ [Mnemonic.add, .sub, .aei, .sei, .shl, .slf], i.mnemonic ≠ some m) :
    ∀ op ∈ instrOps s i, Leaves State.flags op := by
  cases i with
  | add | sub | aei | sei | shl | slf => simp [Instr.mnemonic] at h
  | _ => simp +contextual [instrOps, addressMode, immediateMode, operandFetch, jumpIf, Leaves, State.flags]

/-- Settles O42: the six instructions named are the only ones with a flagged compute, whose flags are read off `A`, `B`
and the operation; every other assignment, a refresh included, leaves both flags. -/
theorem flagsWrittenOnlyByFlaggedCompute : Obligations.FlagsWrittenOnlyByFlaggedCompute := by
  refine ⟨?_, ?_, ?_, ?_⟩
  · intro s t hb ht hm
    exact (flags_eq_iff t s).1 (step_leaves State.flags s t hb ht fetchOps_leave_flags
      (instrOps_leave_flags s s.nextInstr hm) (fun _ _ _ _ => rfl))
  · intro s op hop
    rcases assignments_leave_flags op (nextOp_mem_assignments s op hop) with h | h
    · exact .inl h
    · exact .inr (fun u => (flags_eq_iff _ u).1 (h u))
  · exact fun sub z c s => ⟨rfl, rfl⟩
  · exact fun sub s => ⟨refreshAfter_zero sub s, refreshAfter_carry sub s⟩

/-! ### `Out` and the `Out` sequence (R18) -/

/-- `Out` and the values put out so far. -/
def State.outputs (s : State) : Byte × List Byte := (s.out, s.outSeq)

theorem outputs_eq_iff (s t : State) : s.outputs = t.outputs ↔ s.out = t.out ∧ s.outSeq = t.outSeq := by
  simp [State.outputs]

theorem fetchOps_leave_outputs : ∀ op ∈ fetchOps, Leaves State.outputs op := by
  simp [fetchOps, Leaves, State.outputs]

theorem shlLoads_leave_outputs (p : Params) : ∀ op ∈ shlLoads p, Leaves State.outputs op := by
  unfold shlLoads
  split <;> simp [Leaves, State.outputs]

theorem instrOps_leave_outputs (s : State) (i : Instr) (h : i ≠ .out) :
    ∀ op ∈ instrOps s i, Leaves State.outputs op := by
  cases i with
  | out => exact absurd rfl h
  | shl x =>
    rw [instrOps, List.forall_mem_append, List.forall_mem_append]
    exact ⟨by simp [addressMode, operandFetch, Leaves, State.outputs], shlLoads_leave_outputs s.params,
      by simp [computeIntoA, Leaves, State.outputs]⟩
  | _ =>
    simp +contextual [instrOps, addressMode, immediateMode, operandFetch, computeIntoA, jumpIf, Leaves, State.outputs]

/-- Settles O43: only the one micro-step of OUT writes `Out` and adds to the `Out` sequence. -/
theorem outWrittenOnlyByOut : Obligations.OutWrittenOnlyByOut := by
  intro s t hb ht
  constructor
  · intro hi
    exact (outputs_eq_iff t s).1 (step_leaves State.outputs s t hb ht fetchOps_leave_outputs
      (instrOps_leave_outputs s s.nextInstr hi) (fun _ _ _ _ => rfl))
  · intro hi hc
    have hc' : s.instrContinues := by rwa [State.instrContinues, hi]
    rw [step_eq_assignAll s hb hc', hi] at ht
    obtain rfl := Host.Outcome.next.inj ht
    exact ⟨rfl, rfl⟩

/-! ### `PC` after an instruction (R17, R80, R100) -/

/-- Where an instruction jumps to, if it does (R101–R103). -/
def jumpTarget (s : State) : Instr → Option Byte
  | .jmp x => some x
  | .jc x => if s.carry then some x else none
  | .jz x => if s.zero then some x else none
  | _ => none

theorem jumpTarget_eq_some (s : State) (i : Instr) (x : Byte) :
    jumpTarget s i = some x ↔ i = .jmp x ∨ (i = .jc x ∧ s.carry = true) ∨ (i = .jz x ∧ s.zero = true) := by
  cases i <;> simp [jumpTarget, and_comm]

theorem assignAll_jumpIf_pc (taken : Bool) (x : Byte) (s : State) :
    (assignAll (immediateMode ++ jumpIf taken x) s).pc = (if taken then some x else none).getD (s.pc + 1) := by
  cases taken <;> rfl

/-- From MS3, which has moved `PC` past the opcode byte, an instruction jumps, or moves it past its operand byte, if it
has one. -/
theorem assignAll_instrOps_pc (s : State) (i : Instr) :
    (assignAll (instrOps s.fetched i) s.fetched).pc = (jumpTarget s i).getD (s.pc + BitVec.ofNat 8 i.length) := by
  have two : s.pc + 1 + 1 = s.pc + BitVec.ofNat 8 2 := BitVec.add_assoc _ _ _
  cases i with
  | nop | slf | undefined | out | hlt | jmp => rfl
  | lda | add | sub | sta | ldi | aei | sei => exact two
  | shl x =>
    rw [instrOps, assignAll_append, assignAll_append, assignAll_shlLoads]
    exact two
  | jc x => exact (assignAll_jumpIf_pc s.carry x s.fetched).trans (congrArg (Option.getD _) two)
  | jz x => exact (assignAll_jumpIf_pc s.zero x s.fetched).trans (congrArg (Option.getD _) two)

/-- Settles O44: `PC` is written by the fetch, by the operand fetch and by the micro-step of a taken jump alone. -/
theorem pcAfterInstruction : Obligations.PcAfterInstruction := by
  intro s t hb hc ht
  rw [step_eq_assignAll s hb hc] at ht
  obtain rfl := Host.Outcome.next.inj ht
  have hpc := assignAll_instrOps_pc s s.nextInstr
  constructor
  · intro x hx
    exact hpc.trans (by rw [(jumpTarget_eq_some s s.nextInstr x).2 hx, Option.getD_some])
  · intro hx
    have hnone : jumpTarget s s.nextInstr = none := by
      refine Option.eq_none_iff_forall_ne_some.2 (fun x h => ?_)
      obtain ⟨hjmp, hjc, hjz⟩ := hx x
      rcases (jumpTarget_eq_some s s.nextInstr x).1 h with h | ⟨h, hf⟩ | ⟨h, hf⟩
      · exact hjmp h
      · simp [hjc h] at hf
      · simp [hjz h] at hf
    exact hpc.trans (by rw [hnone, Option.getD_none])

/-! ### Reset (R26, R125, R126) -/

/-- Settles O1: reset is the start of a run with the default parameters and start values, and with nothing listed in
memory. -/
theorem resetStartsRunningAtZero : Obligations.ResetStartsRunningAtZero :=
  ⟨rfl, rfl, rfl, rfl, rfl, rfl, rfl, rfl, rfl, rfl, rfl, rfl, fun _ => rfl⟩

end Sys2Proof.Machine
end

section
/-! PROOFS. Memory (R29, R38, R40, R41): only the last micro-step of `STA` writes it, and a byte stored stays until the
next store to its address, for the fetch, the operand fetch and the dereference to read. -/

namespace Sys2Proof.Machine

/-! ### What a step writes to memory -/

/-- A run of micro-steps has done the assignments of a first part of it, wherever the host stops it (R76, R114). -/
theorem runMicro_eq_assignAll_prefix (ops : List MicroOp) (hp : ∀ op ∈ ops, Plain op) (s : State) :
    ∃ done, done <+: ops ∧ ∃ n l st,
      runMicro ops s = { assignAll done s with position := n, answers := l, status := st } := by
  induction ops generalizing s with
  | nil => exact ⟨[], List.prefix_rfl, s.position, s.answers, s.status, rfl⟩
  | cons op rest ih =>
    by_cases hr : s.status = .running
    · have hp' : ∀ o ∈ rest, Plain o := fun o ho => hp o (by simp [ho])
      obtain ⟨done, hdone, n, l, st, hrun⟩ := ih hp' (microStep op s)
      have hplain : ∀ o ∈ done, Plain o := fun o ho => hp' o (hdone.subset ho)
      refine ⟨op :: done, List.cons_prefix_cons.2 ⟨rfl, hdone⟩, n, l, st, ?_⟩
      rw [runMicro_cons op rest s hr, hrun, microStep_eq op (hp op (by simp)) s, assignAll_commutes done hplain,
        assignAll_cons]
    · exact ⟨[], List.nil_prefix, s.position, s.answers, s.status, runMicro_ended _ s hr⟩

/-- What assignments leave alone one by one, they leave alone in a row. -/
theorem assignAll_leaves {α : Type} (f : State → α) (ops : List MicroOp) (h : ∀ op ∈ ops, Leaves f op) (s : State) :
    f (assignAll ops s) = f s := by
  induction ops generalizing s with
  | nil => rfl
  | cons op rest ih => exact (ih (fun o ho => h o (by simp [ho])) (op s)).trans (h op (by simp) s)

theorem closeInstr_memory (i : Instr) (s : State) : (closeInstr i s).memory = s.memory := by
  unfold closeInstr
  split <;> rfl

theorem fetchOps_leave_memory : ∀ op ∈ fetchOps, Leaves State.memory op := by
  simp [fetchOps, Leaves]

theorem addressMode_leaves_memory (x : Byte) : ∀ op ∈ addressMode x, Leaves State.memory op := by
  simp [addressMode, operandFetch, Leaves]

theorem shlLoads_leave_memory (p : Params) : ∀ op ∈ shlLoads p, Leaves State.memory op := by
  unfold shlLoads
  split <;> simp [Leaves]

/-- Of the instructions only `STA` has a micro-step that writes memory (R29, R40). -/
theorem instrOps_leave_memory (s : State) (i : Instr) (h : ∀ x, i ≠ .sta x) :
    ∀ op ∈ instrOps s i, Leaves State.memory op := by
  cases i with
  | sta x => exact absurd rfl (h x)
  | shl x =>
    rw [instrOps, List.forall_mem_append, List.forall_mem_append]
    exact ⟨addressMode_leaves_memory x, shlLoads_leave_memory s.params, by simp [computeIntoA, Leaves]⟩
  | _ => simp +contextual [instrOps, addressMode, immediateMode, operandFetch, computeIntoA, jumpIf, Leaves]

/-- The micro-steps of `STA x` leave memory as it is, if the host stops them before the last, and write `A` at `x`
otherwise (R92). -/
theorem runMicro_sta_memory (s : State) (x : Byte) :
    (runMicro (fetchOps ++ instrOps s (.sta x)) s).memory = s.memory ∨
    (runMicro (fetchOps ++ instrOps s (.sta x)) s).memory = s.memory.write x s.a := by
  have hops : fetchOps ++ instrOps s (.sta x) = (fetchOps ++ addressMode x) ++ [storeA] := rfl
  obtain ⟨done, hdone, n, l, st, hrun⟩ := runMicro_eq_assignAll_prefix _ (plain_fetch_instrOps s (.sta x)) s
  rw [hrun]
  rw [hops, List.prefix_concat_iff] at hdone
  rcases hdone with rfl | hdone
  · exact .inr rfl
  · have hleave : ∀ op ∈ fetchOps ++ addressMode x, Leaves State.memory op :=
      List.forall_mem_append.2 ⟨fetchOps_leave_memory, addressMode_leaves_memory x⟩
    exact .inl (assignAll_leaves State.memory done (fun op hop => hleave op (hdone.subset hop)) s)

/-- Settles O41: the write of `STA` is its last micro-step, after the one that puts the operand into `Mem`; no other
instruction has a micro-step that writes memory. -/
theorem onlyStaWritesMemory : Obligations.OnlyStaWritesMemory := by
  intro s t hb ht
  constructor
  · intro hi
    exact step_leaves State.memory s t hb ht fetchOps_leave_memory (instrOps_leave_memory s s.nextInstr hi)
      (fun _ _ _ _ => rfl)
  · intro x hi addr haddr
    rw [step_eq_closeInstr s hb, hi] at ht
    obtain rfl := Host.Outcome.next.inj ht
    rw [closeInstr_memory]
    rcases runMicro_sta_memory s x with h | h
    · rw [h]
    · rw [h, Memory.read_write_ne _ _ _ _ haddr]

/-! ### The store and the next fetch (R41, R131) -/

/-- After `n` answers are taken, the host lets `m` more pass if it lets `n + m` pass before. -/
theorem continues_of_drop (s t : State) (n m : Nat) (h : s.continues (n + m)) (ht : t.answers = s.answers.drop n) :
    t.continues m := by
  intro a ha
  rw [ht, List.take_drop] at ha
  exact h a (List.mem_of_mem_drop ha)

/-- The state after all seven micro-steps of `STA x` answered `Continue` (R92). -/
def State.stored (x : Byte) (s : State) : State :=
  { s with mem := x, pc := s.pc + 2, instruction := s.opcode, memory := s.memory.write x s.a,
           answers := s.answers.drop 7 }

/-- In canonical memory the address of the store reads `A` (R41). -/
theorem stored_read (s : State) (x : Byte) (h : s.memory.wf) : (s.stored x).memory.read x = s.a := by
  rw [State.stored, Memory.read_write _ _ _ _ h, if_pos rfl]

/-- A step of `STA x` that the host lets finish (R92). -/
theorem step_sta (s : State) (x : Byte) (hb : s.atBoundary) (hc : s.continues 7) (hi : s.nextInstr = .sta x) :
    step s = .next (s.stored x) := by
  have hc' : s.instrContinues := by rwa [State.instrContinues, hi]
  have hpc : s.pc + 1 + 1 = s.pc + 2 := BitVec.add_assoc _ _ _
  rw [step_eq_assignAll s hb hc', hi, State.stored, ← hpc]
  obtain ⟨hr, hp⟩ := hb
  simp [instrOps, addressMode, operandFetch, memFromPc, pcIncrement, setMem, storeA, State.fetched, endStatus,
    microStepCount, hr, hp]

/-- Settles O46: the finished store leaves `A` at its address, and the fetch that follows loads the byte at the new
`PC`. -/
theorem storeSeenByNextFetch : Obligations.StoreSeenByNextFetch := by
  intro s x hb hwf hc hi
  have hread := stored_read s x hwf
  refine ⟨s.stored x, step_sta s x hb (continues_mono s 7 10 hc (by omega)) hi, hb, hread, ?_⟩
  rintro rfl
  refine ⟨?_, hread⟩
  rw [fetch_continues (s.stored _) hb.1 (continues_of_drop s _ 7 3 hc rfl)]
  exact hread

/-! ### Every later access (R38, R41, R131) -/

/-- A step that is no `STA x` leaves the byte at `x`. -/
theorem step_keeps_byte (s t : State) (x : Byte) (hs : BetweenSteps s) (ht : step s = .next t)
    (hi : s.status = .running → s.nextInstr ≠ .sta x) : t.memory.read x = s.memory.read x := by
  by_cases hr : s.status = .running
  · obtain ⟨hother, hsta⟩ := onlyStaWritesMemory s t ⟨hr, hs hr⟩ ht
    by_cases hstore : ∃ y, s.nextInstr = .sta y
    · obtain ⟨y, hy⟩ := hstore
      refine hsta y hy x ?_
      rintro rfl
      exact hi hr hy
    · rw [hother (fun y hy => hstore ⟨y, hy⟩)]
  · rw [step_of_ended s hr] at ht
    obtain rfl := Host.Outcome.next.inj ht
    rfl

/-- A run is its first step and the rest. -/
theorem core_run_of_step (k : Nat) (s t : State) (h : step s = .next t) : core.run (k + 1) s = core.run k t := by
  have h' : core.step s = .next t := h
  simp only [Host.Core.run, h']

/-- Steps without a `STA x` among them leave the byte at `x`. -/
theorem core_run_keeps_byte (k : Nat) (s t : State) (x : Byte) (hs : BetweenSteps s) (ht : core.run k s = .next t)
    (hi : ∀ j < k, ∀ v, core.run j s = .next v → v.status = .running → v.nextInstr ≠ .sta x) :
    t.memory.read x = s.memory.read x := by
  induction k generalizing s with
  | zero =>
    obtain rfl := Host.Outcome.next.inj ht
    rfl
  | succ k ih =>
    obtain ⟨u, hu, hrun⟩ := core_run_succ k s t ht
    have hrest : t.memory.read x = u.memory.read x := by
      refine ih u (step_keeps_betweenSteps s u hs hu) hrun (fun j hj v hv => ?_)
      exact hi (j + 1) (by omega) v ((core_run_of_step j s u hu).trans hv)
    exact hrest.trans (step_keeps_byte s u x hs hu (hi 0 (by omega) s rfl))

/-- An opcode byte of mnemonic `m` at `PC` makes the next instruction `m` with the byte after it (R44, R45). -/
theorem nextInstr_of_atOpcode (s : State) (m : Mnemonic) (h : s.atOpcode m) :
    s.nextInstr = m.toInstr s.operandByte := by
  obtain ⟨hwf, hcode, hlow⟩ := h
  have hlookup : s.params.opcodeMap.lookup (highNibble s.opcode) = some m := by rw [hcode, lookup_code _ hwf]
  have hdecode : decodeOpcode s.params s.opcode = some m := by
    unfold decodeOpcode
    split
    case h_1 => exact hlookup
    case h_2 hp =>
      have hzero : lowNibble s.opcode = 0 := hlow.resolve_left (by simp [hp])
      rw [if_pos hzero, hlookup]
  rw [State.nextInstr, decodePair, hdecode]

/-- An `LDI` that the host lets finish loads its operand byte (R93). -/
theorem step_ldi_a (s : State) (hb : s.atBoundary) (hc : s.continues 7) (hop : s.atOpcode .ldi) :
    ∃ t, step s = .next t ∧ t.a = s.operandByte := by
  have hi : s.nextInstr = .ldi s.operandByte := nextInstr_of_atOpcode s .ldi hop
  have hc' : s.instrContinues := by rwa [State.instrContinues, hi]
  exact ⟨_, step_eq_assignAll s hb hc', by rw [hi]; rfl⟩

/-- An `LDA` that the host lets finish loads the byte at its operand's address (R91). -/
theorem step_lda_a (s : State) (hb : s.atBoundary) (hc : s.continues 8) (hop : s.atOpcode .lda) :
    ∃ t, step s = .next t ∧ t.a = s.memory.read s.operandByte := by
  have hi : s.nextInstr = .lda s.operandByte := nextInstr_of_atOpcode s .lda hop
  have hc' : s.instrContinues := by rwa [State.instrContinues, hi]
  exact ⟨_, step_eq_assignAll s hb hc', by rw [hi]; rfl⟩

/-- Settles O59: the store leaves `A` at `x`, no further step writes there, and the fetch, `LDI` and `LDA` read memory
at `PC`, at the operand's place and at the operand. -/
theorem storeSeenByLaterAccesses : Obligations.StoreSeenByLaterAccesses := by
  intro s x hb hwf hc hi
  refine ⟨s.stored x, step_sta s x hb hc hi, hb, rfl, ?_⟩
  intro k u hu hno
  have hread : u.memory.read x = s.a :=
    (core_run_keeps_byte k (s.stored x) u x (fun _ => hb.2) hu hno).trans (stored_read s x hwf)
  refine ⟨hread, ?_, ?_, ?_⟩
  · rintro hub huc rfl
    rw [fetch_continues u hub.1 huc]
    exact hread
  · rintro hub huc rfl hop
    obtain ⟨w, hw, ha⟩ := step_ldi_a u hub huc hop
    exact ⟨w, hw, ha.trans hread⟩
  · rintro hub huc hx hop
    obtain ⟨w, hw, ha⟩ := step_lda_a u hub huc hop
    exact ⟨w, hw, ha.trans (hx ▸ hread)⟩

end Sys2Proof.Machine
end

section
/-! PROOFS. The decoder and the encoder (R44–R53): what each does with the instruction of a mnemonic and with the
undefined code, the two round trips, the length, the low nibble and the vacant code. -/

namespace Sys2Proof

/-! ### Instructions by their mnemonic -/

/-- Every instruction is the undefined code or a mnemonic with an operand byte. -/
theorem eq_undefined_or_toInstr (i : Instr) : i = .undefined ∨ ∃ (m : Mnemonic) (x : Byte), i = m.toInstr x := by
  cases i with
  | undefined => exact .inl rfl
  | nop => exact .inr ⟨.nop, 0, rfl⟩
  | lda x => exact .inr ⟨.lda, x, rfl⟩
  | add x => exact .inr ⟨.add, x, rfl⟩
  | sub x => exact .inr ⟨.sub, x, rfl⟩
  | sta x => exact .inr ⟨.sta, x, rfl⟩
  | ldi x => exact .inr ⟨.ldi, x, rfl⟩
  | jmp x => exact .inr ⟨.jmp, x, rfl⟩
  | jc x => exact .inr ⟨.jc, x, rfl⟩
  | jz x => exact .inr ⟨.jz, x, rfl⟩
  | aei x => exact .inr ⟨.aei, x, rfl⟩
  | sei x => exact .inr ⟨.sei, x, rfl⟩
  | shl x => exact .inr ⟨.shl, x, rfl⟩
  | slf => exact .inr ⟨.slf, 0, rfl⟩
  | out => exact .inr ⟨.out, 0, rfl⟩
  | hlt => exact .inr ⟨.hlt, 0, rfl⟩

@[simp] theorem mnemonic_toInstr (m : Mnemonic) (x : Byte) : (m.toInstr x).mnemonic = some m := by
  cases m <;> rfl

theorem operandBytes_toInstr (m : Mnemonic) (x : Byte) :
    (m.toInstr x).operandBytes = if m.takesOperand then [x] else [] := by
  cases m <;> rfl

/-- A mnemonic without an operand is one instruction, whatever byte follows (R46). -/
theorem toInstr_of_not_takesOperand (m : Mnemonic) (h : m.takesOperand = false) (x y : Byte) :
    m.toInstr x = m.toInstr y := by
  cases m with
  | nop | slf | out | hlt => rfl
  | lda | add | sub | sta | ldi | jmp | jc | jz | aei | sei | shl => cases h

/-- The 11 operand-taking mnemonics (R46, R58). -/
theorem takesOperand_iff_mem (m : Mnemonic) :
    m.takesOperand = true ↔ m ∈ [Mnemonic.lda, .add, .sub, .sta, .ldi, .jmp, .jc, .jz, .aei, .sei, .shl] := by
  cases m <;> decide

/-! ### Decoding by what the opcode byte means -/

theorem decodePair_of_some {p : Params} {opcode : Byte} {m : Mnemonic} (h : decodeOpcode p opcode = some m) (x : Byte) :
    decodePair p opcode x = m.toInstr x := by
  rw [decodePair, h]

theorem decodePair_of_none {p : Params} {opcode : Byte} (h : decodeOpcode p opcode = none) (x : Byte) :
    decodePair p opcode x = .undefined := by
  rw [decodePair, h]

theorem isTwoByte_of_some {p : Params} {opcode : Byte} {m : Mnemonic} (h : decodeOpcode p opcode = some m) :
    isTwoByte p opcode = m.takesOperand := by
  rw [isTwoByte, h]

theorem isTwoByte_of_none {p : Params} {opcode : Byte} (h : decodeOpcode p opcode = none) :
    isTwoByte p opcode = false := by
  rw [isTwoByte, h]

theorem isTwoByte_iff (p : Params) (opcode : Byte) :
    isTwoByte p opcode = true ↔ ∃ m, m.takesOperand = true ∧ decodeOpcode p opcode = some m := by
  cases h : decodeOpcode p opcode with
  | none => simp [isTwoByte_of_none h]
  | some m => simp [isTwoByte_of_some h]

/-- A one-byte opcode does not look at the byte after it. -/
theorem decodePair_of_one_byte {p : Params} {opcode : Byte} (h : isTwoByte p opcode = false) (x y : Byte) :
    decodePair p opcode x = decodePair p opcode y := by
  cases hm : decodeOpcode p opcode with
  | none => rw [decodePair_of_none hm, decodePair_of_none hm]
  | some m =>
    rw [decodePair_of_some hm, decodePair_of_some hm]
    exact toInstr_of_not_takesOperand m (isTwoByte_of_some hm ▸ h) x y

/-- The length of what an opcode byte decodes to (R46). -/
theorem length_decodePair (p : Params) (opcode x : Byte) :
    (decodePair p opcode x).length = if isTwoByte p opcode then 2 else 1 := by
  cases hm : decodeOpcode p opcode with
  | none => rw [decodePair_of_none hm, isTwoByte_of_none hm]; rfl
  | some m => rw [decodePair_of_some hm, isTwoByte_of_some hm, Instr.length, mnemonic_toInstr]

theorem decode_one_byte {p : Params} {opcode : Byte} (h : isTwoByte p opcode = false) (rest : List Byte) (x : Byte) :
    decode p (opcode :: rest) = .ok (decodePair p opcode x, rest) := by
  cases rest with
  | nil => rw [decode, h, decodePair_of_one_byte h x 0]; rfl
  | cons y rest => rw [decode, h, decodePair_of_one_byte h x y]; rfl

theorem decode_two_bytes {p : Params} {opcode : Byte} (h : isTwoByte p opcode = true) (x : Byte) (rest : List Byte) :
    decode p (opcode :: x :: rest) = .ok (decodePair p opcode x, rest) := by
  rw [decode, h]; rfl

theorem decode_missing_operand {p : Params} {opcode : Byte} (h : isTwoByte p opcode = true) :
    decode p [opcode] = .error .noOperandByte := by
  rw [decode, h]; rfl

/-! ### Encoding -/

theorem encode_toInstr (map : OpcodeMap) (m : Mnemonic) (x : Byte) :
    encode map (m.toInstr x) = opcodeByte (map.code m) :: if m.takesOperand then [x] else [] := by
  rw [encode, mnemonic_toInstr, operandBytes_toInstr]

theorem encode_undefined (map : OpcodeMap) : encode map .undefined = [opcodeByte map.vacant] := rfl

/-! ### The vacant code (R50) -/

theorem code_ne_vacant (map : OpcodeMap) (m : Mnemonic) : map.code m ≠ map.vacant := fun h =>
  vacant_not_mem map (h ▸ codes_eq_map map ▸ List.mem_map_of_mem (mem_all m))

/-- Fifteen distinct codes and two vacant ones would be seventeen nibbles. -/
theorem eq_vacant (map : OpcodeMap) (hwf : map.wf = true) (c : Nibble) (hc : ∀ m, map.code m ≠ c) : c = map.vacant := by
  by_contra hne
  have hfree : c ∉ map.codes := by
    rw [codes_eq_map, List.mem_map]
    rintro ⟨m, -, hm⟩
    exact hc m hm
  have hnodup : (c :: map.vacant :: map.codes).Nodup :=
    List.nodup_cons.2 ⟨by simp [hne, hfree], List.nodup_cons.2 ⟨vacant_not_mem map, codes_nodup map hwf⟩⟩
  have hle : 17 ≤ Fintype.card Nibble := hnodup.length_le_card
  exact absurd hle (by decide)

/-- Settles O5: the vacant code is no mnemonic's, and with 15 distinct codes there is no room for another. -/
theorem exactlyOneVacantCode : Obligations.ExactlyOneVacantCode := fun map hwf =>
  ⟨code_ne_vacant map, eq_vacant map hwf⟩

/-! ### The round trips -/

/-- Settles O3: the opcode byte of a mnemonic looks the mnemonic up again, the opcode byte of the vacant code none, and
the length is that of the mnemonic. -/
theorem decodeEncodeRoundTrip : Obligations.DecodeEncodeRoundTrip := by
  intro p hwf i rest
  obtain rfl | ⟨m, x, rfl⟩ := eq_undefined_or_toInstr i
  · have hd : decodeOpcode p (opcodeByte p.opcodeMap.vacant) = none :=
      (decodeOpcode_opcodeByte p _).trans ((lookup_eq_none _ _).2 (code_ne_vacant _))
    rw [encode_undefined, List.singleton_append, decode_one_byte (isTwoByte_of_none hd) rest 0, decodePair_of_none hd]
  · have hd : decodeOpcode p (opcodeByte (p.opcodeMap.code m)) = some m :=
      (decodeOpcode_opcodeByte p _).trans (lookup_code _ hwf m)
    have h2 := isTwoByte_of_some hd
    rw [encode_toInstr, ← decodePair_of_some hd x]
    cases ht : m.takesOperand with
    | true => exact decode_two_bytes (h2.trans ht) x rest
    | false => exact decode_one_byte (h2.trans ht) rest x

/-- Settles O4: an opcode byte with low nibble 0 is the one written for the mnemonic it decodes to, or for the vacant
code, the only code that means none. -/
theorem encodeDecodeRoundTrip : Obligations.EncodeDecodeRoundTrip := by
  intro p hwf opcode more rest i hlow hdec
  have hop : decodeOpcode p opcode = p.opcodeMap.lookup (highNibble opcode) := by
    rw [← decodeOpcode_opcodeByte, opcodeByte_highNibble opcode hlow]
  cases hm : decodeOpcode p opcode with
  | none =>
    have hvac : highNibble opcode = p.opcodeMap.vacant :=
      eq_vacant _ hwf _ ((lookup_eq_none _ _).1 (hop.symm.trans hm))
    rw [decode_one_byte (isTwoByte_of_none hm) more 0, decodePair_of_none hm] at hdec
    cases hdec
    rw [encode_undefined, ← hvac, opcodeByte_highNibble opcode hlow, List.singleton_append]
  | some m =>
    have hcode : p.opcodeMap.code m = highNibble opcode := code_of_lookup _ _ _ (hop.symm.trans hm)
    have h2 := isTwoByte_of_some hm
    have henc (x : Byte) : encode p.opcodeMap (decodePair p opcode x) = opcode :: if m.takesOperand then [x] else [] := by
      rw [decodePair_of_some hm, encode_toInstr, hcode, opcodeByte_highNibble opcode hlow]
    cases ht : m.takesOperand with
    | false =>
      rw [decode_one_byte (h2.trans ht) more 0] at hdec
      cases hdec
      rw [henc, ht]; rfl
    | true =>
      cases more with
      | nil => rw [decode_missing_operand (h2.trans ht)] at hdec; cases hdec
      | cons x tail =>
        rw [decode_two_bytes (h2.trans ht)] at hdec
        cases hdec
        rw [henc, ht]; rfl

/-! ### Low nibble, table words, length -/

theorem decodeOpcode_of_ignore {p : Params} (h : p.lowNibblePolicy = .ignore) (opcode : Byte) :
    decodeOpcode p opcode = p.opcodeMap.lookup (highNibble opcode) := by
  rw [decodeOpcode, h]

theorem decodeOpcode_of_haltIfNonzero {p : Params} (h : p.lowNibblePolicy = .haltIfNonzero) {opcode : Byte}
    (hlow : lowNibble opcode ≠ 0) : decodeOpcode p opcode = none := by
  rw [decodeOpcode, h]
  exact if_neg hlow

/-- Settles O6: `ignore` looks the high nibble up alone, and `haltIfNonzero` finds nothing for a nonzero low nibble. -/
theorem lowNibbleIgnoredOrHalts : Obligations.LowNibbleIgnoredOrHalts := by
  intro p opcode operand
  refine ⟨fun hp opcode' hhigh => ?_, fun hp hlow => ?_⟩
  · have hd : decodeOpcode p opcode' = decodeOpcode p opcode := by
      rw [decodeOpcode_of_ignore hp, decodeOpcode_of_ignore hp, hhigh]
    exact ⟨by rw [decodePair, hd, decodePair], by rw [isTwoByte, hd, isTwoByte]⟩
  · have hd := decodeOpcode_of_haltIfNonzero hp hlow
    exact ⟨decodePair_of_none hd operand, isTwoByte_of_none hd⟩

/-- Settles O7: nine words, each decoded by the model. -/
theorem tableWordsDecode : Obligations.TableWordsDecode := by
  unfold Obligations.TableWordsDecode
  decide

/-- Settles O8: whether the opcode byte is a two-byte one fixes both what `decode` leaves and the length. -/
theorem lengthFixedByOpcode : Obligations.LengthFixedByOpcode := by
  intro p opcode operand rest
  have hiff : (∃ m ∈ [Mnemonic.lda, .add, .sub, .sta, .ldi, .jmp, .jc, .jz, .aei, .sei, .shl],
      decodeOpcode p opcode = some m) ↔ isTwoByte p opcode = true := by
    simp only [isTwoByte_iff, takesOperand_iff_mem]
  rw [length_decodePair, hiff]
  cases h : isTwoByte p opcode with
  | true => exact ⟨decode_two_bytes h operand rest, by simp, .inl rfl⟩
  | false => exact ⟨decode_one_byte h (operand :: rest) operand, by simp, .inr rfl⟩

end Sys2Proof
end

section
/-! PROOFS. The image text and its loader (R69–R72): a line is accepted exactly when it is the line written for its
index and byte, a text exactly when its lines are those of 256 bytes with only empty lines behind them; and boot. -/

namespace Sys2Proof.Machine

/-! ### Binary digits -/

/-- The number that bits stand for, most significant first, onto a value read so far. -/
def bitsValue (acc : Nat) (bits : List Bool) : Nat := bits.foldl (fun n b => 2 * n + b.toNat) acc

theorem bitChar_injective : Function.Injective bitChar := by decide

theorem readBit_eq_some (c : Char) (d : Nat) : readBit c = some d ↔ ∃ b, c = bitChar b ∧ d = b.toNat := by
  simp only [readBit, Bool.exists_bool, bitChar]
  split
  · next h => simp [h, eq_comm]
  · split <;> simp_all [eq_comm]

theorem readBits_cons (acc : Nat) (c : Char) (cs : List Char) (n : Nat) :
    readBits acc (c :: cs) = some n ↔ ∃ b, c = bitChar b ∧ readBits (2 * acc + b.toNat) cs = some n := by
  rw [readBits]
  cases h : readBit c with
  | none =>
    refine ⟨nofun, ?_⟩
    rintro ⟨b, hb, -⟩
    exact absurd ((readBit_eq_some c _).2 ⟨b, hb, rfl⟩) (by simp [h])
  | some d =>
    obtain ⟨b, rfl, rfl⟩ := (readBit_eq_some c d).1 h
    refine ⟨fun hr => ⟨b, rfl, hr⟩, ?_⟩
    rintro ⟨b', hb, hr⟩
    rwa [bitChar_injective hb]

/-- What the loader reads as a number is the digits of bits, and the number is theirs. -/
theorem readBits_eq_some (acc : Nat) (l : List Char) (n : Nat) :
    readBits acc l = some n ↔ ∃ bits : List Bool, l = bits.map bitChar ∧ n = bitsValue acc bits := by
  induction l generalizing acc with
  | nil => simp [readBits, bitsValue, eq_comm]
  | cons c cs ih =>
    simp only [readBits_cons, ih]
    constructor
    · rintro ⟨b, rfl, bits, rfl, rfl⟩
      exact ⟨b :: bits, rfl, rfl⟩
    · rintro ⟨_ | ⟨b, bits⟩, hl, rfl⟩
      · cases hl
      · cases hl
        exact ⟨b, rfl, bits, rfl, rfl⟩

theorem readBits_byteDigits : ∀ v : Byte, readBits 0 (byteDigits v) = some v.toNat := by decide

theorem bitsValue_eight_bits : ∀ b₇ b₆ b₅ b₄ b₃ b₂ b₁ b₀ : Bool,
    bitsValue 0 [b₇, b₆, b₅, b₄, b₃, b₂, b₁, b₀] < 256 ∧
    [b₇, b₆, b₅, b₄, b₃, b₂, b₁, b₀].map bitChar =
      byteDigits (BitVec.ofNat 8 (bitsValue 0 [b₇, b₆, b₅, b₄, b₃, b₂, b₁, b₀])) := by decide

/-- Eight characters that the loader reads as a number are the digits of that byte. -/
theorem eq_byteDigits_of_readBits {l : List Char} {n : Nat} (hlen : l.length = 8) (h : readBits 0 l = some n) :
    n < 256 ∧ l = byteDigits (BitVec.ofNat 8 n) := by
  obtain ⟨bits, rfl, rfl⟩ := (readBits_eq_some 0 l n).1 h
  match bits, hlen with
  | [b₇, b₆, b₅, b₄, b₃, b₂, b₁, b₀], _ => exact bitsValue_eight_bits b₇ b₆ b₅ b₄ b₃ b₂ b₁ b₀

/-! ### One line -/

@[simp] theorem length_imageLine (i : Nat) (v : Byte) : (imageLine i v).length = 19 := rfl

theorem parseLine_imageLine (i : Nat) (hi : i < memorySize) (v : Byte) : parseLine i (imageLine i v) = some v := by
  have hshape : (imageLine i v).length = 19 ∧ ((imageLine i v).drop 8).take 3 = separator := ⟨rfl, rfl⟩
  have haddr : readBits 0 ((imageLine i v).take 8) = some i := by
    refine (readBits_byteDigits (BitVec.ofNat 8 i)).trans ?_
    rw [BitVec.toNat_ofNat]
    exact congrArg some (Nat.mod_eq_of_lt hi)
  have hbyte : readBits 0 ((imageLine i v).drop 11) = some v.toNat := readBits_byteDigits v
  rw [parseLine, if_pos hshape, haddr, hbyte]
  simp

theorem eq_imageLine_of_parseLine {i : Nat} {line : List Char} {v : Byte} (h : parseLine i line = some v) :
    line = imageLine i v := by
  rw [parseLine] at h
  split at h
  case isFalse => cases h
  case isTrue hshape =>
    obtain ⟨hlen, hsep⟩ := hshape
    split at h
    case h_2 => cases h
    case h_1 address n haddr hbyte =>
      split at h
      case isFalse => cases h
      case isTrue hi =>
        cases h
        subst hi
        have htake := (eq_byteDigits_of_readBits (by simp [hlen]) haddr).2
        have hdrop := (eq_byteDigits_of_readBits (by simp [hlen]) hbyte).2
        calc line = line.take 8 ++ ((line.drop 8).take 3 ++ (line.drop 8).drop 3) := by
              rw [List.take_append_drop, List.take_append_drop]
          _ = imageLine address (BitVec.ofNat 8 n) := by
            rw [hsep, List.drop_drop, htake, hdrop, imageLine, List.append_assoc]

/-! ### All lines -/

/-- The lines of bytes from index `i` on. -/
def imageLinesFrom : Nat → List Byte → List (List Char)
  | _, [] => []
  | i, v :: vs => imageLine i v :: imageLinesFrom (i + 1) vs

@[simp] theorem length_imageLinesFrom (i : Nat) (vs : List Byte) : (imageLinesFrom i vs).length = vs.length := by
  induction vs generalizing i with
  | nil => rfl
  | cons v vs ih => simp [imageLinesFrom, ih]

theorem getElem?_imageLinesFrom (i k : Nat) (vs : List Byte) (h : k < vs.length) :
    (imageLinesFrom i vs)[k]? = some (imageLine (i + k) vs[k]) := by
  induction vs generalizing i k with
  | nil => cases h
  | cons v vs ih =>
    cases k with
    | zero => rfl
    | succ k => simpa [imageLinesFrom, Nat.add_assoc, Nat.add_comm 1] using ih (i + 1) k (by simpa using h)

theorem splitLines_append_newline (l rest : List Char) (h : '\n' ∉ l) :
    splitLines (l ++ '\n' :: rest) = l :: splitLines rest := by
  induction l with
  | nil => simp [splitLines]
  | cons c cs ih =>
    obtain ⟨hc, hcs⟩ := List.ne_and_not_mem_of_not_mem_cons h
    rw [List.cons_append, splitLines, if_neg (Ne.symm hc), ih hcs]

theorem newline_not_mem_byteDigits : ∀ v : Byte, '\n' ∉ byteDigits v := by decide

theorem newline_not_mem_imageLine (i : Nat) (v : Byte) : '\n' ∉ imageLine i v := by
  simp [imageLine, separator, newline_not_mem_byteDigits]

theorem splitLines_imageTextFrom (i : Nat) (vs : List Byte) : splitLines (imageTextFrom i vs) = imageLinesFrom i vs := by
  induction vs generalizing i with
  | nil => rfl
  | cons v vs ih => rw [imageTextFrom, splitLines_append_newline _ _ (newline_not_mem_imageLine i v), ih, imageLinesFrom]

/-- Behind the 256th line the loader accepts empty lines alone. -/
theorem loadLines_end_iff (i : Nat) (hi : memorySize ≤ i) (lines : List (List Char)) (vs : List Byte) :
    loadLines i lines = .ok vs ↔ vs = [] ∧ ∀ line ∈ lines, line = [] := by
  induction lines generalizing i with
  | nil => simp [loadLines, Nat.not_lt.2 hi, eq_comm]
  | cons line rest ih =>
    rw [loadLines, if_neg (Nat.not_lt.2 hi)]
    split
    · next h => simp [ih (i + 1) (by omega), h]
    · next h => simp [h]

theorem loadLines_cons_ok_iff (i : Nat) (hi : i < memorySize) (line : List Char) (rest : List (List Char)) (vs : List Byte) :
    loadLines i (line :: rest) = .ok vs ↔
      ∃ v vs', vs = v :: vs' ∧ line = imageLine i v ∧ loadLines (i + 1) rest = .ok vs' := by
  rw [loadLines, if_pos hi]
  constructor
  · intro h
    split at h
    case h_1 => cases h
    case h_2 v hv =>
      split at h
      case h_1 vs' hvs =>
        cases h
        exact ⟨v, vs', rfl, eq_imageLine_of_parseLine hv, hvs⟩
      case h_2 => cases h
  · rintro ⟨v, vs', rfl, rfl, hvs⟩
    rw [parseLine_imageLine i hi, hvs]

/-- The loader accepts the lines of the bytes up to index 255, with only empty lines after them (R70, D25). -/
theorem loadLines_imageLinesFrom (i : Nat) (vs : List Byte) (blank : List (List Char)) (hlen : i + vs.length = memorySize)
    (hblank : ∀ line ∈ blank, line = []) : loadLines i (imageLinesFrom i vs ++ blank) = .ok vs := by
  induction vs generalizing i with
  | nil => exact (loadLines_end_iff i hlen.ge blank []).2 ⟨rfl, hblank⟩
  | cons v vs ih =>
    rw [List.length_cons] at hlen
    exact (loadLines_cons_ok_iff i (by omega) _ _ _).2 ⟨v, vs, rfl, rfl, ih (i + 1) (by omega)⟩

/-- It accepts no other lines. -/
theorem eq_imageLinesFrom_of_loadLines (i : Nat) (hi : i ≤ memorySize) (lines : List (List Char)) (vs : List Byte)
    (h : loadLines i lines = .ok vs) :
    i + vs.length = memorySize ∧ ∃ blank, lines = imageLinesFrom i vs ++ blank ∧ ∀ line ∈ blank, line = [] := by
  induction lines generalizing i vs with
  | nil =>
    by_cases hlt : i < memorySize
    · rw [loadLines, if_pos hlt] at h
      cases h
    · obtain ⟨rfl, hblank⟩ := (loadLines_end_iff i (Nat.not_lt.1 hlt) [] vs).1 h
      exact ⟨hi.antisymm (Nat.not_lt.1 hlt), [], rfl, hblank⟩
  | cons line rest ih =>
    by_cases hlt : i < memorySize
    · obtain ⟨v, vs', rfl, rfl, hrest⟩ := (loadLines_cons_ok_iff i hlt line rest vs).1 h
      obtain ⟨hlen, blank, rfl, hblank⟩ := ih (i + 1) hlt vs' hrest
      exact ⟨by rw [List.length_cons]; omega, blank, rfl, hblank⟩
    · obtain ⟨rfl, hblank⟩ := (loadLines_end_iff i (Nat.not_lt.1 hlt) (line :: rest) vs).1 h
      exact ⟨hi.antisymm (Nat.not_lt.1 hlt), line :: rest, rfl, hblank⟩

/-- What a file that the loader accepts looks like (R70). -/
theorem loadImage_ok {text : List Char} {image : List Byte} (h : loadImage (some text) = .ok image) :
    image.length = 256 ∧
      ∃ blank, splitLines text = imageLinesFrom 0 image ++ blank ∧ ∀ line ∈ blank, line = [] := by
  obtain ⟨hlen, hlines⟩ := eq_imageLinesFrom_of_loadLines 0 (Nat.zero_le _) _ _ h
  exact ⟨(Nat.zero_add _).symm.trans hlen, hlines⟩

/-- Settles O52: the written text splits into the written lines, and the loader reads each back. -/
theorem imageTextLoadsBack : Obligations.ImageTextLoadsBack := by
  intro image hlen
  have hload : loadLines 0 (imageLinesFrom 0 image ++ []) = .ok image :=
    loadLines_imageLinesFrom 0 image [] ((Nat.zero_add _).trans hlen) nofun
  rw [loadImage, imageText, splitLines_imageTextFrom, ← hload, List.append_nil]

/-- Settles O53: the loader accepts the lines of an image and then empty ones alone. -/
theorem loaderAcceptsOnlyExactLines : Obligations.LoaderAcceptsOnlyExactLines := by
  intro text image h
  obtain ⟨hlen, blank, hsplit, hblank⟩ := loadImage_ok h
  have hlines : (imageLinesFrom 0 image).length = 256 := (length_imageLinesFrom 0 image).trans hlen
  refine ⟨hlen, fun i hi => ⟨?_, length_imageLine _ _⟩, ?_⟩
  · rw [hsplit, List.getElem?_append_left (by omega), getElem?_imageLinesFrom 0 i image hi, Nat.zero_add]
  · rw [hsplit, ← hlines, List.drop_left]
    exact hblank

/-! ### Boot -/

theorem boot_of_ok {file : Option (List Char)} {image : List Byte} (h : loadImage file = .ok image) (p : Params)
    (r : ResetRegs) (l : List HostAnswer) : boot p r l file = .ok (State.start p r (Memory.ofImage image) l) := by
  rw [boot, h]

theorem boot_of_error {file : Option (List Char)} {e : LoadError} (h : loadImage file = .error e) (p : Params)
    (r : ResetRegs) (l : List HostAnswer) : boot p r l file = .error e := by
  rw [boot, h]

theorem length_of_loadImage {file : Option (List Char)} {image : List Byte} (h : loadImage file = .ok image) :
    image.length = 256 := by
  cases file with
  | none => cases h
  | some text => exact (loadImage_ok h).1

/-- Byte `i` of a 256-byte image is in memory at address `i` (R71). -/
theorem read_ofImage (image : List Byte) (hlen : image.length = 256) (i : Nat) (hi : i < image.length) :
    (Memory.ofImage image).read (BitVec.ofNat 8 i) = image[i] := by
  have haddr : (BitVec.ofNat 8 i).toNat = 0 + i := by
    rw [BitVec.toNat_ofNat, Nat.zero_add]
    exact Nat.mod_eq_of_lt (hi.trans_eq hlen)
  have htake : image.take memorySize = image := List.take_of_length_le hlen.le
  rw [Memory.read, Memory.ofImage, htake, haddr, get_ofBytesFrom image 0 i hi]

/-- Settles O2: boot is the start of a run from the memory that holds the image the loader accepted. -/
theorem bootLoadsImageVerbatim : Obligations.BootLoadsImageVerbatim := by
  intro p r l file
  refine ⟨fun image h => ⟨_, boot_of_ok h p r l⟩, fun s hs => ?_, fun e h => boot_of_error h p r l⟩
  cases h : loadImage file with
  | error e =>
    rw [boot_of_error h] at hs
    cases hs
  | ok image =>
    rw [boot_of_ok h] at hs
    cases hs
    have hlen := length_of_loadImage h
    exact ⟨image, rfl, hlen, read_ofImage image hlen, Memory.ofImage_wf image, rfl, rfl⟩

end Sys2Proof.Machine
end

section
/-! PROOFS. The assembler (R54–R66): what an accepted source went through, what one line of Pass 2 can do, where the
variables are, and how Pass 1's cursor counts what Pass 2 emits. -/

namespace Sys2Proof.Machine

/-! ### An accepted source -/

/-- What the last checks let through (R64, R66). -/
theorem finishAssembly_ok {tags : Symbols} {e : Emission} {r : Assembly} (h : finishAssembly tags e = .ok r) :
    e.clear = true ∧ e.code.length ≤ 256 ∧
      r = { image := e.code ++ List.replicate (256 - e.code.length) 0, tags := tags, vars := e.vars,
            codeLength := e.code.length } := by
  rw [finishAssembly] at h
  split at h
  case isTrue => cases h
  case isFalse hclear =>
    split at h
    case isTrue => cases h
    case isFalse hsize =>
      cases h
      exact ⟨by simpa using hclear, Nat.not_lt.1 hsize, rfl⟩

/-- The stages that an accepted source went through. -/
theorem assemble_ok {map : OpcodeMap} {text : List Char} {r : Assembly} (h : assemble map (some text) = .ok r) :
    ∃ lines e, parseSource (splitLines text) = .ok lines ∧ passOne 0 [] lines = .ok r.tags ∧
      passTwo map r.tags Emission.initial lines = .ok e ∧ e.clear = true ∧ e.code.length ≤ 256 ∧
      r = { image := e.code ++ List.replicate (256 - e.code.length) 0, tags := r.tags, vars := e.vars,
            codeLength := e.code.length } := by
  rw [assemble] at h
  split at h
  case h_1 => cases h
  case h_2 lines hparse =>
    split at h
    case h_1 => cases h
    case h_2 tags hone =>
      split at h
      case h_1 => cases h
      case h_2 e htwo =>
        obtain ⟨hclear, hsize, rfl⟩ := finishAssembly_ok h
        exact ⟨lines, e, hparse, hone, htwo, hclear, hsize, rfl⟩

/-- Settles O54: the padding fills the code up to 256 bytes, and the size check keeps it from being longer. -/
theorem assembledImageIsPadded : Obligations.AssembledImageIsPadded := by
  intro map text r h
  obtain ⟨-, e, -, -, -, -, hsize, hr⟩ := assemble_ok h
  rw [hr]
  refine ⟨by simp [hsize], hsize, fun i (hlow : e.code.length ≤ i) hhigh => ?_⟩
  have hpad : i - e.code.length < 256 - e.code.length := by omega
  rw [List.getElem?_append_right hlow, List.getElem?_replicate_of_lt hpad]

/-! ### Names bound to addresses -/

theorem find_eq_none_iff (names : Symbols) (t : Token) : Symbols.find names t = none ↔ t ∉ names.map Prod.fst := by
  rw [Symbols.find, Option.map_eq_none_iff, List.find?_eq_none, List.mem_map]
  simp only [beq_iff_eq, not_exists, not_and]

theorem find_append (xs ys : Symbols) (t : Token) :
    Symbols.find (xs ++ ys) t = (Symbols.find xs t).or (Symbols.find ys t) := by
  rw [Symbols.find, List.find?_append, Option.map_or, Symbols.find, Symbols.find]

@[simp] theorem find_singleton (t : Token) (addr : Nat) : Symbols.find [(t, addr)] t = some addr := by
  simp [Symbols.find]

/-! ### What one line of Pass 2 can do -/

/-- The variable `name` allocated at the cursor (R64). -/
def Emission.withVar (e : Emission) (name : Token) : Emission :=
  { e with vars := e.vars ++ [(name, e.cursor)], cursor := e.cursor - 1 }

theorem allocate_ok {e e' : Emission} {name : Token} {addr : Nat} (h : e.allocate name = .ok (addr, e')) :
    0 < e.cursor ∧ e' = e.withVar name := by
  rw [Emission.allocate] at h
  split at h
  case isTrue hlt =>
    cases h
    exact ⟨Nat.zero_lt_of_lt hlt, rfl⟩
  case isFalse => cases h

/-- Resolving an operand allocates a variable for a name without an address, and changes nothing otherwise (R63). -/
theorem resolveOperand_ok {tags : Symbols} {e e' : Emission} {t : Token} {value : Nat}
    (h : resolveOperand tags e t = .ok (value, e')) :
    e' = e ∨ (Symbols.find e.vars t = none ∧ 0 < e.cursor ∧ e' = e.withVar t) := by
  rw [resolveOperand] at h
  split at h
  case h_1 =>
    split at h
    case isTrue => cases h; exact .inl rfl
    case isFalse => cases h
  case h_2 =>
    split at h
    case h_1 => cases h; exact .inl rfl
    case h_2 => cases h; exact .inl rfl
    case h_3 hfree =>
      split at h
      case isTrue => exact .inr ⟨hfree, allocate_ok h⟩
      case isFalse => cases h

theorem emitLiteral_ok {e e' : Emission} {l : SourceLine} {n : Nat} (h : emitLiteral e l n = .ok e') :
    l.argument = none ∧ e' = e.emitByte (BitVec.ofNat 8 n) := by
  rw [emitLiteral] at h
  split at h
  case isTrue => cases h
  case isFalse harg =>
    split at h
    case isTrue => cases h
    case isFalse =>
      cases h
      exact ⟨by simpa using harg, rfl⟩

/-- An instruction line emits one byte, or two with the resolution of its operand between them (R58, R62). -/
theorem emitInstruction_ok {map : OpcodeMap} {tags : Symbols} {e e' : Emission} {l : SourceLine}
    (h : emitInstruction map tags e l = .ok e') :
    (l.argument = none ∧ ∃ o, e' = e.emitByte o) ∨
    ∃ t o value e₁ v, l.argument = some t ∧ resolveOperand tags (e.emitByte o) t = .ok (value, e₁) ∧
      e' = e₁.emitByte v := by
  rw [emitInstruction] at h
  split at h
  case h_1 => cases h
  case h_2 m hm =>
    split at h
    case h_1 => cases h
    case h_2 => cases h
    case h_3 harg => cases h; exact .inl ⟨harg, _, rfl⟩
    case h_4 t _ harg =>
      split at h
      case h_1 => cases h
      case h_2 value e₁ hres =>
        split at h
        case h_1 => cases h
        case h_2 v _ => cases h; exact .inr ⟨t, _, value, e₁, v, harg, hres, rfl⟩

/-- A line of Pass 2 is a tag line, emits one byte, or emits two with the resolution of its operand between them. -/
theorem emitLine_ok {map : OpcodeMap} {tags : Symbols} {e e' : Emission} {l : SourceLine}
    (h : emitLine map tags e l = .ok e') :
    ((tagName l.opcode).isSome ∧ e' = e) ∨
    (tagName l.opcode = none ∧ l.argument = none ∧ ∃ v, e' = e.emitByte v) ∨
    (tagName l.opcode = none ∧ ∃ t o value e₁ v, l.argument = some t ∧
      resolveOperand tags (e.emitByte o) t = .ok (value, e₁) ∧ e' = e₁.emitByte v) := by
  rw [emitLine] at h
  split at h
  case h_1 name hname => cases h; exact .inl ⟨by simp [hname], rfl⟩
  case h_2 hname =>
    split at h
    case h_1 n hn =>
      obtain ⟨harg, rfl⟩ := emitLiteral_ok h
      exact .inr (.inl ⟨hname, harg, _, rfl⟩)
    case h_2 =>
      obtain ⟨harg, hv⟩ | hop := emitInstruction_ok h
      · exact .inr (.inl ⟨hname, harg, hv⟩)
      · exact .inr (.inr ⟨hname, hop⟩)

theorem passTwo_cons_ok {map : OpcodeMap} {tags : Symbols} {e e' : Emission} {l : SourceLine} {rest : List SourceLine}
    (h : passTwo map tags e (l :: rest) = .ok e') :
    ∃ e₁, emitLine map tags e l = .ok e₁ ∧ passTwo map tags e₁ rest = .ok e' := by
  rw [passTwo] at h
  split at h
  case h_1 e₁ he => exact ⟨e₁, he, h⟩
  case h_2 => cases h

theorem passTwo_append_ok {map : OpcodeMap} {tags : Symbols} {e e' : Emission} {pre post : List SourceLine}
    (h : passTwo map tags e (pre ++ post) = .ok e') :
    ∃ e₁, passTwo map tags e pre = .ok e₁ ∧ passTwo map tags e₁ post = .ok e' := by
  induction pre generalizing e with
  | nil => exact ⟨e, rfl, h⟩
  | cons l pre ih =>
    obtain ⟨e₁, he, hrest⟩ := passTwo_cons_ok h
    obtain ⟨e₂, hpre, hpost⟩ := ih hrest
    exact ⟨e₂, by rw [passTwo, he]; exact hpre, hpost⟩

/-! ### The variables (R64) -/

/-- The variables so far are at 255, 254, … in order of allocation, with the cursor below the last, each name once. -/
structure Emission.VarsDescend (e : Emission) : Prop where
  addresses : e.vars.map Prod.snd = (List.range e.vars.length).map (fun k => 255 - k)
  names : (e.vars.map Prod.fst).Nodup
  cursor : e.cursor + e.vars.length = 255

theorem varsDescend_initial : Emission.initial.VarsDescend := ⟨rfl, List.nodup_nil, rfl⟩

theorem Emission.VarsDescend.emitByte {e : Emission} (h : e.VarsDescend) (v : Byte) : (e.emitByte v).VarsDescend :=
  ⟨h.addresses, h.names, h.cursor⟩

theorem Emission.VarsDescend.withVar {e : Emission} (h : e.VarsDescend) (hpos : 0 < e.cursor) {name : Token}
    (hfree : Symbols.find e.vars name = none) : (e.withVar name).VarsDescend where
  addresses := by
    have haddr : e.cursor = 255 - e.vars.length := by have := h.cursor; omega
    simp [Emission.withVar, List.range_succ, h.addresses, haddr]
  names := by
    rw [find_eq_none_iff] at hfree
    rw [Emission.withVar, List.map_append]
    exact h.names.append (List.nodup_singleton _) (by simpa [List.disjoint_singleton] using hfree)
  cursor := by
    have := h.cursor
    simp only [Emission.withVar, List.length_append, List.length_singleton]
    omega

theorem Emission.VarsDescend.resolveOperand {tags : Symbols} {e e' : Emission} {t : Token} {value : Nat}
    (h : e.VarsDescend) (hres : resolveOperand tags e t = .ok (value, e')) : e'.VarsDescend := by
  obtain rfl | ⟨hfree, hpos, rfl⟩ := resolveOperand_ok hres
  · exact h
  · exact h.withVar hpos hfree

theorem Emission.VarsDescend.emitLine {map : OpcodeMap} {tags : Symbols} {e e' : Emission} {l : SourceLine}
    (h : e.VarsDescend) (he : emitLine map tags e l = .ok e') : e'.VarsDescend := by
  obtain ⟨-, rfl⟩ | ⟨-, -, v, rfl⟩ | ⟨-, t, o, value, e₁, v, -, hres, rfl⟩ := emitLine_ok he
  · exact h
  · exact h.emitByte v
  · exact ((h.emitByte o).resolveOperand hres).emitByte v

theorem Emission.VarsDescend.passTwo {map : OpcodeMap} {tags : Symbols} {e e' : Emission} {ls : List SourceLine}
    (h : e.VarsDescend) (hp : passTwo map tags e ls = .ok e') : e'.VarsDescend := by
  induction ls generalizing e with
  | nil => cases hp; exact h
  | cons l rest ih =>
    obtain ⟨e₁, he, hrest⟩ := passTwo_cons_ok hp
    exact ih (h.emitLine he) hrest

/-- Every variable lies above the allocator's cursor. -/
theorem Emission.VarsDescend.cursor_lt {e : Emission} (h : e.VarsDescend) {v : Token × Nat} (hv : v ∈ e.vars) :
    e.cursor < v.2 := by
  have hmem : v.2 ∈ (List.range e.vars.length).map (fun k => 255 - k) := h.addresses ▸ List.mem_map_of_mem hv
  obtain ⟨k, hk, hkv⟩ := List.mem_map.1 hmem
  rw [List.mem_range] at hk
  have := h.cursor
  omega

/-- With a variable there, the overlap check keeps the code at or below one above the cursor (D19). -/
theorem code_le_of_clear {e : Emission} (h : e.clear = true) {v : Token × Nat} (hv : v ∈ e.vars) :
    e.code.length ≤ e.cursor + 1 := by
  have hne : e.vars ≠ [] := List.ne_nil_of_mem hv
  simpa [Emission.clear, hne] using h

/-- Settles O55: every line of Pass 2 keeps the variables descending from 255, and the overlap check keeps the code
below the last of them. -/
theorem variablesDescendAboveCode : Obligations.VariablesDescendAboveCode := by
  intro map text r h
  obtain ⟨lines, e, -, -, htwo, hclear, -, hr⟩ := assemble_ok h
  have hvars : e.VarsDescend := varsDescend_initial.passTwo htwo
  rw [hr]
  exact ⟨hvars.addresses, hvars.names, fun v hv => (code_le_of_clear hclear hv).trans (hvars.cursor_lt hv)⟩

/-! ### Tags (R59, R60) -/

/-- The bytes Pass 1 counts for lines: none for a tag line (R59). -/
def linesSize (ls : List SourceLine) : Nat := ((ls.filter (fun k => (tagName k.opcode).isNone)).map passOneSize).sum

/-- The bytes Pass 1 counts for one line. -/
def lineSize (l : SourceLine) : Nat := if (tagName l.opcode).isNone then passOneSize l else 0

theorem lineSize_tag {l : SourceLine} (h : (tagName l.opcode).isSome) : lineSize l = 0 :=
  if_neg (by simpa [Option.isSome_iff_ne_none] using h)

theorem lineSize_code {l : SourceLine} (h : tagName l.opcode = none) : lineSize l = passOneSize l :=
  if_pos (by rw [h]; rfl)

theorem linesSize_cons (l : SourceLine) (ls : List SourceLine) : linesSize (l :: ls) = lineSize l + linesSize ls := by
  rw [linesSize, List.filter_cons, lineSize]
  split
  · rw [List.map_cons, List.sum_cons, linesSize]
  · rw [Nat.zero_add, linesSize]

@[simp] theorem length_emitByte (e : Emission) (v : Byte) : (e.emitByte v).code.length = e.code.length + 1 := by
  simp [Emission.emitByte]

theorem resolveOperand_code {tags : Symbols} {e e' : Emission} {t : Token} {value : Nat}
    (h : resolveOperand tags e t = .ok (value, e')) : e'.code = e.code := by
  obtain rfl | ⟨-, -, rfl⟩ := resolveOperand_ok h <;> rfl

/-- Pass 2 emits from a line what Pass 1 counts for it. -/
theorem length_emitLine {map : OpcodeMap} {tags : Symbols} {e e' : Emission} {l : SourceLine}
    (h : emitLine map tags e l = .ok e') : e'.code.length = e.code.length + lineSize l := by
  obtain ⟨htag, rfl⟩ | ⟨hname, harg, v, rfl⟩ | ⟨hname, t, o, value, e₁, v, harg, hres, rfl⟩ := emitLine_ok h
  · rw [lineSize_tag htag, Nat.add_zero]
  · simp [lineSize_code hname, passOneSize, harg]
  · simp [lineSize_code hname, passOneSize, harg, resolveOperand_code hres]

theorem length_passTwo {map : OpcodeMap} {tags : Symbols} {e e' : Emission} {ls : List SourceLine}
    (h : passTwo map tags e ls = .ok e') : e'.code.length = e.code.length + linesSize ls := by
  induction ls generalizing e with
  | nil => cases h; rfl
  | cons l rest ih =>
    obtain ⟨e₁, he, hrest⟩ := passTwo_cons_ok h
    rw [ih hrest, length_emitLine he, linesSize_cons, Nat.add_assoc]

/-- Pass 1 over a tag line binds its name, which was unbound, to the cursor. -/
theorem passOne_cons_tag {cursor : Nat} {tags tags' : Symbols} {l : SourceLine} {rest : List SourceLine} {name : Token}
    (hname : tagName l.opcode = some name) (h : passOne cursor tags (l :: rest) = .ok tags') :
    Symbols.find tags name = none ∧ passOne cursor (tags ++ [(name, cursor)]) rest = .ok tags' := by
  simp only [passOne, hname] at h
  split at h
  case isTrue => cases h
  case isFalse =>
    split at h
    case isTrue => cases h
    case isFalse hfree =>
      split at h
      case isTrue => cases h
      case isFalse =>
        split at h
        case isTrue => cases h
        case isFalse => exact ⟨by simpa using hfree, h⟩

theorem passOne_cons {l : SourceLine} (hname : tagName l.opcode = none) (cursor : Nat) (tags : Symbols)
    (rest : List SourceLine) : passOne cursor tags (l :: rest) = passOne (cursor + passOneSize l) tags rest := by
  rw [passOne, hname]

/-- Pass 1 comes to what follows some lines with the cursor moved on by what it counts for them. -/
theorem passOne_append_ok {cursor : Nat} {tags tags' : Symbols} {pre post : List SourceLine}
    (h : passOne cursor tags (pre ++ post) = .ok tags') :
    ∃ tags₁, passOne (cursor + linesSize pre) tags₁ post = .ok tags' := by
  induction pre generalizing cursor tags with
  | nil => exact ⟨tags, h⟩
  | cons l pre ih =>
    rw [linesSize_cons, ← Nat.add_assoc]
    cases hname : tagName l.opcode with
    | some name =>
      rw [lineSize_tag (by simp [hname]), Nat.add_zero]
      exact ih (passOne_cons_tag hname h).2
    | none =>
      rw [lineSize_code hname]
      exact ih ((passOne_cons hname _ _ _).symm.trans h)

/-- Pass 1 changes no tag it has bound. -/
theorem passOne_keeps_find {cursor : Nat} {tags tags' : Symbols} {ls : List SourceLine} {name : Token} {addr : Nat}
    (hfind : Symbols.find tags name = some addr) (h : passOne cursor tags ls = .ok tags') :
    Symbols.find tags' name = some addr := by
  induction ls generalizing cursor tags with
  | nil => cases h; exact hfind
  | cons l rest ih =>
    cases hname : tagName l.opcode with
    | some other => exact ih (by rw [find_append, hfind, Option.some_or]) (passOne_cons_tag hname h).2
    | none => exact ih hfind ((passOne_cons hname _ _ _).symm.trans h)

/-- Settles O56: Pass 1 binds the tag to the size of the lines before it, and Pass 2 emits that many bytes from them. -/
theorem tagAddressCountsEmittedBytes : Obligations.TagAddressCountsEmittedBytes := by
  intro map text r pre post l name h hparse hname
  obtain ⟨lines, e', hlines, hone, htwo, -⟩ := assemble_ok h
  obtain rfl : lines = pre ++ l :: post := Except.ok.inj (hlines.symm.trans hparse)
  obtain ⟨e, hpre, -⟩ := passTwo_append_ok htwo
  obtain ⟨tags₁, hrest⟩ := passOne_append_ok hone
  obtain ⟨hfree, hafter⟩ := passOne_cons_tag hname hrest
  have hlen : e.code.length = linesSize pre := (length_passTwo hpre).trans (Nat.zero_add _)
  refine ⟨e, hpre, ?_, hlen⟩
  refine passOne_keeps_find ?_ hafter
  rw [find_append, hfree, Option.none_or, find_singleton, hlen, Nat.zero_add]

/-! ### Literal lines (R61) -/

/-- A decimal integer is no tag: it does not end in a colon. -/
theorem tagName_of_readDecimal {t : Token} {n : Nat} (h : readDecimal t = some n) : tagName t = none := by
  rw [readDecimal] at h
  split at h
  case isFalse => cases h
  case isTrue hdigits =>
    refine if_neg fun hcolon => ?_
    have hdigit := List.all_eq_true.1 hdigits.2 ':' (List.mem_of_getLast? hcolon)
    exact absurd hdigit (by decide)

theorem emitLine_literal (map : OpcodeMap) (tags : Symbols) (e : Emission) {l : SourceLine} {n : Nat}
    (hn : readDecimal l.opcode = some n) (hle : n ≤ 255) (harg : l.argument = none) :
    emitLine map tags e l = .ok (e.emitByte (BitVec.ofNat 8 n)) := by
  rw [emitLine, tagName_of_readDecimal hn, hn]
  simp [emitLiteral, harg, hle]

/-- Settles O57: each literal line emits its one byte. -/
theorem literalLinesEmitVerbatim : Obligations.LiteralLinesEmitVerbatim := by
  intro map tags e ls ns hread hle harg
  induction ls generalizing e ns with
  | nil =>
    obtain rfl : ns = [] := by simpa using hread.symm
    simp [passTwo]
  | cons l rest ih =>
    obtain _ | ⟨n, ns⟩ := ns
    · cases hread
    · obtain ⟨hn, hrest⟩ := List.cons.inj hread
      rw [List.forall_mem_cons] at hle harg
      rw [passTwo, emitLine_literal map tags e hn hle.1 harg.1]
      refine (ih (e.emitByte (BitVec.ofNat 8 n)) ns hrest hle.2 harg.2).trans ?_
      simp [Emission.emitByte]

/-! ### The adjustment of an operand (R65) -/

theorem adjustment_eq_none_iff (op : Token) : adjustment op = none ↔ op ∉ [['+'], ['-'], ['*']] := by
  simp only [adjustment, List.mem_cons, List.not_mem_nil, or_false, not_or]
  split
  · next h => simp [h]
  · split
    · next h => simp [h]
    · split <;> simp_all

theorem adjustOperand_of_some {op arg : Token} {f : Int → Int → Int} {n : Nat} (hop : adjustment op = some f)
    (hn : readDecimal arg = some n) (value : Nat) :
    adjustOperand value (some op) (some arg) = .ok (BitVec.ofInt 8 (f value n)) := by
  simp [adjustOperand, hop, hn]

theorem adjustOperand_missing {op : Token} {a : Option Token} (hop : op ∈ [['+'], ['-'], ['*']])
    (ha : a.bind readDecimal = none) (value : Nat) :
    adjustOperand value (some op) a = .error .missingOptionalArgument := by
  obtain ⟨f, hf⟩ := Option.ne_none_iff_exists'.1 (mt (adjustment_eq_none_iff op).1 (not_not.2 hop))
  simp [adjustOperand, hf, ha]

theorem adjustOperand_invalid {op : Token} (hop : op ∉ [['+'], ['-'], ['*']]) (value : Nat) (a : Option Token) :
    adjustOperand value (some op) a = .error .invalidOptionalOperator := by
  simp [adjustOperand, (adjustment_eq_none_iff op).2 hop]

theorem toNat_ofInt_byte (z : Int) : ((BitVec.ofInt 8 z).toNat : Int) = z % 256 := by
  rw [BitVec.toNat_ofInt]
  exact Int.toNat_of_nonneg (Int.emod_nonneg z (by decide))

/-- Settles O58: the byte of an integer is its residue modulo 256, and the two errors are the two ways an operator lacks
what it needs. -/
theorem operandAdjustmentWraps : Obligations.OperandAdjustmentWraps := by
  intro value n arg hn
  have hplus : adjustOperand value (some ['+']) (some arg) = .ok (BitVec.ofInt 8 (value + n)) :=
    adjustOperand_of_some rfl hn value
  have htimes : adjustOperand value (some ['*']) (some arg) = .ok (BitVec.ofInt 8 (value * n)) :=
    adjustOperand_of_some rfl hn value
  refine ⟨?_, ?_, ⟨_, adjustOperand_of_some rfl hn value, toNat_ofInt_byte _⟩, fun a => rfl,
    fun op hop a ha => adjustOperand_missing hop ha value, fun op hop a => adjustOperand_invalid hop value a⟩
  · rw [hplus, ← Nat.cast_add, BitVec.ofInt_natCast]
  · rw [htimes, ← Nat.cast_mul, BitVec.ofInt_natCast]

end Sys2Proof.Machine
end

section
/-! PROOFS. The engine (R73–R79): the pseudocode read literally, one micro-step at a time, is the step of the
model, and what a step does when the host stops it or lets it finish. -/

namespace Sys2Proof.Machine

/-! ### Operands read from `M[Mem]` (R81–R83) -/

/-- Two micro-steps that assign alike where a run reaches them can stand for each other in it, wherever the host stops
the run. -/
theorem runMicro_replace (pre post : List MicroOp) (hpre : ∀ o ∈ pre, Plain o) {op op' : MicroOp} (hop : Plain op)
    (hop' : Plain op') (s : State) (h : op (assignAll pre s) = op' (assignAll pre s)) :
    runMicro (pre ++ op :: post) s = runMicro (pre ++ op' :: post) s := by
  induction pre generalizing s with
  | nil =>
    have h' : op s = op' s := h
    simp only [List.nil_append, runMicro, microStep, h']
  | cons o rest ih =>
    have hrest : ∀ o ∈ rest, Plain o := fun o ho => hpre o (by simp [ho])
    have h' : op (assignAll rest (microStep o s)) = op' (assignAll rest (microStep o s)) := by
      rw [assignAll_cons] at h
      rw [microStep_eq o (hpre o (by simp)), assignAll_commutes rest hrest, hop.commutes, hop'.commutes, h]
    rw [List.cons_append, List.cons_append, runMicro, runMicro, ih hrest _ h']

theorem decodedOps_of_some {s : State} {m : Mnemonic} (h : decodeOpcode s.params s.instruction = some m) :
    decodedOps s = operandOps m ++ executeOps s m := by
  rw [decodedOps, h]

theorem decodedOps_of_none {s : State} (h : decodeOpcode s.params s.instruction = none) : decodedOps s = [] := by
  rw [decodedOps, h]

theorem executeOps_shl (s : State) : executeOps s .shl = shlLoads s.params ++ computeIntoA false := by
  cases h : s.params.shlOrder <;> simp [executeOps, shlLoads, computeIntoA, h]

/-- The micro-steps of the literal pseudocode after MS3 do what those with the decoder's operand byte do: after MS5
`Mem` is the operand's own address, and the one micro-step that uses the operand reads it there (R83). -/
theorem runMicro_decodedOps (s : State) : runMicro (decodedOps s) s = runMicro (instrOps s (fetchedInstr s)) s := by
  have use {op op' : MicroOp} (post : List MicroOp) (hop : Plain op) (hop' : Plain op')
      (h : op (assignAll operandFetch s) = op' (assignAll operandFetch s)) :=
    runMicro_replace operandFetch post (by simp [operandFetch]) hop hop' s h
  have jump (taken : Bool) :
      runMicro (operandFetch ++ if taken then [loadPc] else []) s =
        runMicro (immediateMode ++ jumpIf taken (s.memory.read s.pc)) s := by
    cases taken
    · rfl
    · exact use [] plain_loadPc (plain_setPc _) rfl
  cases hd : decodeOpcode s.params s.instruction with
  | none => rw [decodedOps_of_none hd, fetchedInstr, decodePair_of_none hd]; rfl
  | some m =>
    rw [decodedOps_of_some hd, fetchedInstr, decodePair_of_some hd]
    cases m with
    | nop | slf | out | hlt => rfl
    | lda | add | sub | sta => exact use _ plain_derefMem (plain_setMem _) rfl
    | shl => rw [executeOps_shl]; exact use _ plain_derefMem (plain_setMem _) rfl
    | ldi => exact use _ plain_loadA (plain_setA _) rfl
    | aei | sei => exact use _ plain_loadB (plain_setB _) rfl
    | jmp => exact jump true
    | jc => exact jump s.carry
    | jz => exact jump s.zero

/-! ### The micro-steps of a whole cycle -/

/-- The micro-steps after MS3 depend on `Instruction`, the flags and the parameters alone. -/
theorem decodedOps_congr {s t : State} (hi : t.instruction = s.instruction) (hc : t.carry = s.carry)
    (hz : t.zero = s.zero) (hp : t.params = s.params) : decodedOps t = decodedOps s := by
  unfold decodedOps
  rw [hi, hp]
  split
  case h_1 m _ => cases m <;> simp only [executeOps, hc, hz, hp]
  case h_2 => rfl

/-- After a fetch that the host does not stop, the micro-steps to come are those the cycle began with (R77). -/
theorem decodedOps_fetch (s : State) (hr : s.status = .running) (hf : (fetch s).status = .running) :
    decodedOps (fetch s) = decodedOps { s with instruction := s.opcode } := by
  obtain ⟨-, -, -, -, hz, hc, -, -, hp⟩ := fetch_frame s
  obtain ⟨-, -, hi, -⟩ := fetch_running s hr hf
  exact decodedOps_congr hi hc hz hp

theorem runMicro_cycleOps (s : State) :
    runMicro (cycleOps s) s = runMicro (decodedOps { s with instruction := s.opcode }) (fetch s) :=
  runMicro_append _ _ s

/-- A step from a boundary is the run of the literal micro-steps and the end of the instruction, wherever the host stops
the run. -/
theorem step_eq_cycleOps (s : State) (hb : s.atBoundary) :
    step s = .next (closeInstr s.nextInstr (runMicro (cycleOps s) s)) := by
  have hfetch : runMicro (fetchOps ++ instrOps s s.nextInstr) s = runMicro (instrOps s s.nextInstr) (fetch s) :=
    runMicro_append _ _ s
  rw [step_eq_closeInstr s hb, hfetch, runMicro_cycleOps]
  by_cases hf : (fetch s).status = .running
  · rw [← decodedOps_fetch s hb.1 hf, runMicro_decodedOps, fetchedInstr_fetch s hb.1 hf, instrOps_fetch]
  · rw [runMicro_ended _ _ hf, runMicro_ended _ _ hf]

/-! ### One micro-step at a time (R25, R74) -/

theorem operandOps_leave_instruction (m : Mnemonic) : ∀ op ∈ operandOps m, Leaves State.instruction op := by
  unfold operandOps
  split <;> simp [Leaves]

theorem executeOps_leave_instruction (s : State) (m : Mnemonic) :
    ∀ op ∈ executeOps s m, Leaves State.instruction op := by
  cases m with
  | shl =>
    rw [executeOps_shl, List.forall_mem_append]
    unfold shlLoads
    split <;> simp [computeIntoA, Leaves]
  | _ => simp +contextual [executeOps, Leaves]

/-- No micro-step after MS3 writes `Instruction`. -/
theorem decodedOps_leave_instruction (s : State) : ∀ op ∈ decodedOps s, Leaves State.instruction op := by
  unfold decodedOps
  split
  · exact List.forall_mem_append.2 ⟨operandOps_leave_instruction _, executeOps_leave_instruction s _⟩
  · simp

/-- What a rule's micro-steps are is fixed while they run: only those of `JC` and `JZ` depend on a flag, and they write
none. -/
theorem executeOps_microStep {s : State} {m : Mnemonic} {op : MicroOp} (hop : op ∈ operandOps m ++ executeOps s m)
    (hp : Plain op) : executeOps (microStep op s) m = executeOps s m := by
  have flags (h : Leaves State.flags op) : (microStep op s).carry = s.carry ∧ (microStep op s).zero = s.zero := by
    simpa [microStep, State.flags, and_comm] using h s
  cases m with
  | jc | jz =>
    have h : Leaves State.flags op := by
      revert op
      simp +contextual [operandOps, Mnemonic.mode, executeOps, Leaves, State.flags, or_imp]
    simp only [executeOps, flags h]
  | shl => rw [executeOps_shl, executeOps_shl]; simp [microStep, hp.params]
  | _ => rfl

/-- A micro-step after MS3 changes neither what `Instruction` decodes to nor the micro-steps that gives. -/
theorem decodedOps_microStep {s : State} {op : MicroOp} (hop : op ∈ decodedOps s) :
    (microStep op s).params = s.params ∧ (microStep op s).instruction = s.instruction ∧
      decodedOps (microStep op s) = decodedOps s := by
  have hplain : Plain op := plain_assignments op (decodedOps_subset s hop)
  have hp : (microStep op s).params = s.params := (emit_params _).trans (hplain.params s)
  have hi : (microStep op s).instruction = s.instruction :=
    (emit_instruction _).trans (decodedOps_leave_instruction s op hop s)
  refine ⟨hp, hi, ?_⟩
  cases hd : decodeOpcode s.params s.instruction with
  | none => simp [decodedOps_of_none hd] at hop
  | some m =>
    rw [decodedOps_of_some hd] at hop
    rw [decodedOps_of_some hd, decodedOps_of_some (m := m) (by rw [hp, hi, hd]), executeOps_microStep hop hplain]

/-- The end of a cycle after its last micro-step, and the halting of one that has none (R74, R87). -/
theorem settle_eq_closeInstr (s : State) (x : Byte) (h : fetchOps.length + (decodedOps s).length ≤ s.position) :
    settle s = closeInstr (decodePair s.params s.instruction x) s := by
  unfold settle
  rw [if_neg (by omega)]
  split
  case h_1 hd => rw [decodePair_of_none hd]; rfl
  case h_2 hd => rw [decodePair_of_some hd]; rfl
  case h_3 m hm hd =>
    rw [if_neg (by simp; omega), decodePair_of_some hd]
    refine endCycle_eq_closeInstr _ ?_ s
    cases m with
    | hlt => exact (hm rfl).elim
    | _ => rfl

/-- Nothing happens between two micro-steps of one cycle. -/
theorem settle_of_lt (s : State) (h : s.position < (fetchOps ++ decodedOps s).length) : settle s = s := by
  by_cases hpos : s.position < fetchOps.length
  · exact if_pos hpos
  · have hne : decodedOps s ≠ [] := by
      intro hnil
      rw [hnil, List.append_nil] at h
      exact hpos h
    unfold settle
    rw [if_neg hpos]
    split
    case h_1 hd => exact absurd (decodedOps_of_none hd) hne
    case h_2 hd => exact absurd (decodedOps_of_some hd) hne
    case h_3 => exact if_pos h

theorem micro_of_ended (s : State) (h : s.status ≠ .running) : micro s = s :=
  if_neg h

/-- More micro-steps, if the machine is `Running` inside an instruction: what `finish` does after its first one. -/
def finishIfInside (fuel : Nat) (s : State) : State :=
  if s.status = .running ∧ s.position ≠ 0 then finish fuel s else s

theorem finishIfInside_of_ended (fuel : Nat) {s : State} (h : s.status ≠ .running) : finishIfInside fuel s = s :=
  if_neg fun hs => h hs.1

/-- A closed instruction is not gone on with: the machine is at a boundary, or its run has ended. -/
theorem finishIfInside_closeInstr (fuel : Nat) (i : Instr) (s : State) :
    finishIfInside fuel (closeInstr i s) = closeInstr i s :=
  if_neg fun hs => hs.2 (betweenSteps_closeInstr i s hs.1)

/-- The first micro-step of `finish`, and what follows it. -/
theorem finish_succ_of_nextOp (fuel : Nat) {s : State} {op : MicroOp} (hr : s.status = .running)
    (hop : nextOp s = some op) : finish (fuel + 1) s = finishIfInside fuel (settle (microStep op s)) := by
  have hmicro : micro s = settle (microStep op s) := by rw [micro, if_pos hr, hop]
  rw [← hmicro]
  rfl

/-- A run that has ended is not gone on with. -/
theorem finishIfInside_settle_of_ended (fuel : Nat) {s : State} (h : s.status ≠ .running) :
    finishIfInside fuel (settle s) = s := by
  rw [settle_of_ended s h, finishIfInside_of_ended fuel h]

theorem microStep_position (op : MicroOp) (s : State) : (microStep op s).position = s.position + 1 := by
  simp [microStep]

/-- Between two micro-steps of one cycle `finish` goes on. -/
theorem finishIfInside_settle_of_lt (fuel : Nat) {s : State} (hr : s.status = .running) (hpos : s.position ≠ 0)
    (h : s.position < (fetchOps ++ decodedOps s).length) : finishIfInside fuel (settle s) = finish fuel s := by
  rw [settle_of_lt s h]
  exact if_pos ⟨hr, hpos⟩

/-- The micro-step at a position, and those after it. -/
theorem getElem?_and_drop_of_drop {l rest : List MicroOp} {op : MicroOp} {n : Nat} (h : l.drop n = op :: rest) :
    l[n]? = some op ∧ l.drop (n + 1) = rest :=
  ⟨by rw [← Nat.add_zero n, ← List.getElem?_drop, h]; rfl, by rw [← List.tail_drop, h]; rfl⟩

/-- Inside the fetch the micro-steps to come are the rest of MS1, MS2 and MS3, whatever `Instruction` still holds. -/
theorem finish_fetchOps (ops : List MicroOp) (fuel : Nat) (s : State) (hr : s.status = .running) (hne : ops ≠ [])
    (h : fetchOps.drop s.position = ops) :
    finish (fuel + ops.length) s = finishIfInside fuel (settle (runMicro ops s)) := by
  induction ops generalizing s with
  | nil => exact absurd rfl hne
  | cons op rest ih =>
    obtain ⟨hop, hrest⟩ := getElem?_and_drop_of_drop h
    have hlt : s.position < fetchOps.length := (List.getElem?_eq_some_iff.1 hop).1
    have hnext : nextOp s = some op := (List.getElem?_append_left hlt).trans hop
    rw [List.length_cons, ← Nat.add_assoc, finish_succ_of_nextOp _ hr hnext, runMicro_cons _ _ _ hr]
    have hpos := microStep_position op s
    by_cases hu : (microStep op s).status = .running
    · cases rest with
      | nil => rfl
      | cons o more =>
        have hlt' : s.position + 1 < fetchOps.length := by
          by_contra hge
          simp [List.drop_eq_nil_of_le (Nat.le_of_not_lt hge)] at hrest
        rw [finishIfInside_settle_of_lt _ hu (by omega) (by rw [List.length_append]; omega)]
        exact ih _ hu (by simp) (hpos ▸ hrest)
    · rw [finishIfInside_settle_of_ended _ hu, runMicro_ended _ _ hu, finishIfInside_settle_of_ended _ hu]

/-- After MS3 the micro-steps to come are the rest of those the decoding gave, and then the instruction is closed. -/
theorem finish_decodedOps (ops : List MicroOp) (fuel : Nat) (s : State) (x : Byte) (hr : s.status = .running)
    (hpos : fetchOps.length ≤ s.position) (hlen : ops.length ≤ fuel)
    (h : (decodedOps s).drop (s.position - fetchOps.length) = ops) :
    finishIfInside fuel (settle s) = closeInstr (decodePair s.params s.instruction x) (runMicro ops s) := by
  induction ops generalizing s fuel with
  | nil =>
    have hend := List.drop_eq_nil_iff.1 h
    rw [settle_eq_closeInstr s x (by omega), finishIfInside_closeInstr]
    rfl
  | cons op rest ih =>
    obtain ⟨hop, hrest⟩ := getElem?_and_drop_of_drop h
    have hlt : s.position - fetchOps.length < (decodedOps s).length := (List.getElem?_eq_some_iff.1 hop).1
    have hnext : nextOp s = some op := (List.getElem?_append_right hpos).trans hop
    have hthree : fetchOps.length = 3 := rfl
    obtain ⟨fuel, rfl⟩ : ∃ n, fuel = n + 1 := ⟨fuel - 1, by simp at hlen; omega⟩
    rw [finishIfInside_settle_of_lt _ hr (by omega) (by rw [List.length_append]; omega),
      finish_succ_of_nextOp _ hr hnext, runMicro_cons _ _ _ hr]
    by_cases hu : (microStep op s).status = .running
    · obtain ⟨hp, hi, hops⟩ := decodedOps_microStep (List.mem_of_getElem? hop)
      have hpos' := microStep_position op s
      rw [← hp, ← hi]
      refine ih fuel _ hu (by omega) (by simpa using hlen) ?_
      rw [hops, hpos', Nat.sub_add_comm hpos, hrest]
    · rw [finishIfInside_settle_of_ended _ hu, runMicro_ended _ _ hu, closeInstr_of_ended _ _ hu]

/-- From a boundary `finish` runs the fetch and what it decoded, and closes the instruction. -/
theorem finish_eq_cycleOps (s : State) (hb : s.atBoundary) :
    finish longestCycle s = closeInstr s.nextInstr (runMicro (cycleOps s) s) := by
  obtain ⟨hr, hp⟩ := hb
  have hfetch : finish longestCycle s = finishIfInside 8 (settle (fetch s)) :=
    finish_fetchOps fetchOps 8 s hr (by simp [fetchOps]) (by rw [hp, List.drop_zero])
  rw [hfetch, runMicro_cycleOps]
  by_cases hf : (fetch s).status = .running
  · obtain ⟨-, -, -, hpos⟩ := fetch_running s hr hf
    have hms3 : (fetch s).position = fetchOps.length := by rw [hpos, hp]; rfl
    rw [finish_decodedOps _ 8 (fetch s) ((fetch s).memory.read (fetch s).pc) hf hms3.ge
      (decodedOps_length _) (by rw [hms3, Nat.sub_self, List.drop_zero]), decodedOps_fetch s hr hf,
      ← fetchedInstr_fetch s hr hf, fetchedInstr]
  · rw [finishIfInside_settle_of_ended _ hf, runMicro_ended _ _ hf, closeInstr_of_ended _ _ hf]

/-- Settles O35: inside an instruction a step is these micro-steps by definition, and an ended engine does none. From a
boundary both are the run of the same micro-steps: what comes next is read off `Instruction` and the position, and no
micro-step after MS3 changes that; the operand is read where the decoder found it. -/
theorem stepIsItsMicroSteps : Obligations.StepIsItsMicroSteps := by
  intro s
  by_cases hr : s.status = .running
  · by_cases hp : s.position = 0
    · rw [step_eq_cycleOps s ⟨hr, hp⟩, finish_eq_cycleOps s ⟨hr, hp⟩]
    · rw [step, if_pos hr, if_neg hp, resumeCycle]
  · have hfinish : finish longestCycle s = finishIfInside 10 (micro s) := rfl
    rw [step_of_ended s hr, hfinish, micro_of_ended s hr, finishIfInside_of_ended _ hr]

/-! ### A host that stops the step, and one that lets it finish (R75, R76, R114) -/

/-- Settles O36: from a boundary a step is a run of the literal micro-steps, `Stop` ends it after the first `k + 1`, and
the end of the instruction leaves an ended run alone. -/
theorem stopLandsAfterAnyMicroStep : Obligations.StopLandsAfterAnyMicroStep := by
  intro s k rest hb hk hstop
  rw [step_eq_cycleOps s hb, runMicro_stops _ (plain_cycleOps s) s hb.1 k hk rest hstop,
    closeInstr_of_ended _ _ (by simp), hb.2, Nat.zero_add]

/-- Settles O45: a step that the host lets finish takes the answers the table counts. -/
theorem microStepTotals : Obligations.MicroStepTotals := by
  intro s t hb hc ht
  rw [step_eq_assignAll s hb hc] at ht
  obtain rfl := Host.Outcome.next.inj ht
  rfl

/-! ### The step and its end (R73, R74) -/

/-- Settles O34: two bytes always decode, and to the instruction at `PC`, which a step executes after its fetch. -/
theorem stepRunsDecodedInstruction : Obligations.StepRunsDecodedInstruction := by
  intro s i rest hb hc hdec
  obtain ⟨htwo, -, -⟩ := lengthFixedByOpcode s.params s.opcode s.operandByte []
  rw [htwo] at hdec
  obtain ⟨rfl, -⟩ := Prod.mk.inj (Except.ok.inj hdec)
  exact step_eq_exec s hb hc

theorem emitted_of_ended (s : State) (h : s.status ≠ .running) : emitted s = none :=
  if_neg h

theorem snapshots_of_ended (s : State) (h : s.status ≠ .running) (n : Nat) : snapshots n s = [] := by
  induction n with
  | zero => rfl
  | succ n ih => rw [snapshots, emitted_of_ended s h, micro_of_ended s h, ih]; rfl

/-- Settles O37: every operation of the engine asks for `Running` first. -/
theorem endedRunDoesNothing : Obligations.EndedRunDoesNothing := by
  intro s
  refine ⟨?_, fun h => ⟨step_of_ended s h, micro_of_ended s h, emitted_of_ended s h, snapshots_of_ended s h⟩⟩
  rintro ⟨hr, hp⟩
  rw [step, if_pos hr, if_pos hp]

end Sys2Proof.Machine
end

section
/-! PROOFS. The ALU (R84–R89): the value and the flags of a compute, and what a refresh writes. -/

namespace Sys2Proof.Machine

theorem performArithmetic_add (a b : Byte) (u : Bool) (old : Flags) : (performArithmetic a b false u old).1 = a + b :=
  aluIntermediate_add a b

theorem performArithmetic_sub (a b : Byte) (u : Bool) (old : Flags) : (performArithmetic a b true u old).1 = a - b :=
  aluIntermediate_sub a b

theorem performArithmetic_zero (a b : Byte) (sub : Bool) (old : Flags) :
    (performArithmetic a b sub true old).2.zero = decide ((performArithmetic a b sub true old).1 = 0) := rfl

theorem performArithmetic_add_carry (a b : Byte) (old : Flags) :
    (performArithmetic a b false true old).2.carry = decide (256 ≤ a.toNat + b.toNat) :=
  aluIntermediate_add_carry a b

theorem performArithmetic_sub_carry (a b : Byte) (old : Flags) :
    (performArithmetic a b true true old).2.carry = decide (b.toNat ≤ a.toNat) :=
  aluIntermediate_sub_carry a b

theorem toNat_sub_byte (a b : Byte) : ((a - b).toNat : Int) = ((a.toNat : Int) - (b.toNat : Int)) % 256 := by
  rw [BitVec.toNat_sub]
  have := b.isLt
  omega

/-- The sum is 0 with a carry exactly when it is 256, since two bytes add up to less than 512 (R85). -/
theorem add_eq_zero_and_carry_iff (a b : Byte) :
    (a + b = 0 ∧ 256 ≤ a.toNat + b.toNat) ↔ a.toNat + b.toNat = 256 := by
  have ha := a.isLt
  have hb := b.isLt
  have hzero : (0 : Byte).toNat = 0 := rfl
  rw [← BitVec.toNat_inj, BitVec.toNat_add, hzero]
  omega

/-- Settles O9: the value is the low 8 bits of the 9-bit intermediate and the carry its bit 8. -/
theorem aluResultsExact : Obligations.AluResultsExact := by
  intro a b old
  simp only [performArithmetic_zero, performArithmetic_add, performArithmetic_sub, performArithmetic_add_carry,
    performArithmetic_sub_carry, decide_eq_true_eq, true_and]
  exact ⟨BitVec.toNat_add a b, toNat_sub_byte a b, sub_eq_zero, add_eq_zero_and_carry_iff a b⟩

/-- Settles O10: a refresh writes both flags back as they were, and adds or subtracts as `refreshOp` says. -/
theorem refreshWritesSumOnly : Obligations.RefreshWritesSumOnly := by
  intro sub s
  refine ⟨rfl, fun h => ?_, fun h => ?_⟩
  · rw [refreshAfter_sum, refreshSubtracts, h]
    exact aluIntermediate_add _ _
  · rw [refreshAfter_sum, refreshSubtracts, h]
    cases sub
    · exact aluIntermediate_add _ _
    · exact aluIntermediate_sub _ _

end Sys2Proof.Machine
end

section
/-! PROOFS. The execute phase of an instruction as its assignments, wherever the host stops it, and with it the loads and
the store (R91–R93): what they complete with, what they leave alone, and their whole cycles. -/

namespace Sys2Proof.Machine

/-! ### An execution as its assignments -/

/-- An instruction that does not halt and that the host lets finish: all its assignments, one answer taken for each, and
the machine at a boundary (R74). -/
theorem exec_continues (i : Instr) (hi : endStatus i = .running) (s : State) (hr : s.status = .running) (n : Nat)
    (hn : (instrOps s i).length = n) (h : s.continues n) :
    exec i s = .next { assignAll (instrOps s i) s with position := 0, answers := s.answers.drop n } := by
  rw [exec_eq, ← endCycle_eq_closeInstr i hi]
  exact congrArg Host.Outcome.next (runCycle_continues _ (plain_instrOps s i) s hr n hn h)

/-- However the host answers, an execution has done the assignments of a first part of its micro-steps, and beside them
it moves only the position, the answers and the status (R76, R114). -/
theorem exec_eq_assignAll_prefix {i : Instr} {s t : State} (ht : exec i s = .next t) :
    ∃ done, done <+: instrOps s i ∧ ∃ n l st,
      t = { assignAll done s with position := n, answers := l, status := st } := by
  rw [exec_eq] at ht
  obtain rfl := Host.Outcome.next.inj ht
  obtain ⟨done, hdone, n, l, st, hrun⟩ := runMicro_eq_assignAll_prefix _ (plain_instrOps s i) s
  rw [hrun, closeInstr]
  split
  case isTrue => exact ⟨done, hdone, 0, l, endStatus i, rfl⟩
  case isFalse => exact ⟨done, hdone, n, l, st, rfl⟩

/-- An execution leaves alone what each of its assignments leaves alone, however the host answers. -/
theorem exec_leaves {α : Type} (f : State → α) {i : Instr} {s t : State} (ht : exec i s = .next t)
    (hops : ∀ op ∈ instrOps s i, Leaves f op)
    (hany : ∀ u n l st, f { u with position := n, answers := l, status := st } = f u) : f t = f s := by
  obtain ⟨done, hdone, n, l, st, rfl⟩ := exec_eq_assignAll_prefix ht
  exact (hany _ n l st).trans (assignAll_leaves f done (fun op hop => hops op (hdone.subset hop)) s)

/-- A step from the opcode byte of mnemonic `m`, whose fetch the host does not stop, executes `m` with the byte after it
(R44, R74, R78). -/
theorem step_eq_exec_of_atOpcode (s : State) (m : Mnemonic) (hb : s.atBoundary) (hop : s.atOpcode m)
    (h : s.continues 3) : step s = exec (m.toInstr s.operandByte) s.fetched := by
  rw [step_eq_exec s hb h, nextInstr_of_atOpcode s m hop]

/-! ### Completion (R91–R93) -/

/-- The refresh after a load adds, whatever `refreshOp` is (R89). -/
theorem refreshAfter_false (s : State) : refreshAfter false s = { s with sum := s.a + s.b } := by
  simp only [refreshAfter, refreshSubtracts_false, performArithmetic_add]
  rfl

/-- All the assignments of `LDA x` (R91). -/
theorem assignAll_lda (s : State) (x : Byte) :
    assignAll (instrOps s (.lda x)) s =
      { s with mem := x, pc := s.pc + 1, a := s.memory.read x, sum := s.memory.read x + s.b } :=
  refreshAfter_false { s with mem := x, pc := s.pc + 1, a := s.memory.read x }

/-- All the assignments of `LDI n` (R93). -/
theorem assignAll_ldi (s : State) (n : Byte) :
    assignAll (instrOps s (.ldi n)) s = { s with mem := s.pc, pc := s.pc + 1, a := n, sum := n + s.b } :=
  refreshAfter_false { s with mem := s.pc, pc := s.pc + 1, a := n }

/-- All the assignments of `STA x` (R92). -/
theorem assignAll_sta (s : State) (x : Byte) :
    assignAll (instrOps s (.sta x)) s = { s with mem := x, pc := s.pc + 1, memory := s.memory.write x s.a } := rfl

/-- Settles O11: the loads do not halt, so a host that lets them finish leaves all their assignments done. -/
theorem loadsComplete : Obligations.LoadsComplete := by
  intro s x hr
  constructor
  · intro h
    rw [exec_continues (.lda x) rfl s hr 5 rfl h, assignAll_lda]
  · intro h
    rw [exec_continues (.ldi x) rfl s hr 4 rfl h, assignAll_ldi]

/-- Settles O12: the last of the store's assignments writes `A` at `x`, and canonical memory reads back what was
written. -/
theorem storeCompletes : Obligations.StoreCompletes := by
  intro s x hr hwf h
  refine ⟨_, exec_continues (.sta x) rfl s hr 4 rfl h, ?_⟩
  rw [assignAll_sta]
  exact ⟨rfl, fun addr => Memory.read_write s.memory x s.a addr hwf⟩

/-! ### Frames (R91–R93) -/

/-- A state without what a load writes, and without what any micro-step moves. -/
def State.besideLoad (s : State) : State :=
  { s with mem := 0, pc := 0, a := 0, sum := 0, position := 0, answers := [], status := .running }

/-- A state without what the store writes, and without what any micro-step moves. -/
def State.besideStore (s : State) : State :=
  { s with mem := 0, pc := 0, memory := [], position := 0, answers := [], status := .running }

theorem besideLoad_eq_iff (s t : State) :
    s.besideLoad = t.besideLoad ↔
      s.b = t.b ∧ s.instruction = t.instruction ∧ s.out = t.out ∧ s.zero = t.zero ∧ s.carry = t.carry ∧
      s.memory = t.memory ∧ s.outSeq = t.outSeq ∧ s.params = t.params := by
  simp [State.besideLoad]

theorem besideStore_eq_iff (s t : State) :
    s.besideStore = t.besideStore ↔
      s.a = t.a ∧ s.b = t.b ∧ s.sum = t.sum ∧ s.instruction = t.instruction ∧ s.out = t.out ∧ s.zero = t.zero ∧
      s.carry = t.carry ∧ s.outSeq = t.outSeq ∧ s.params = t.params := by
  simp [State.besideStore]

theorem lda_leaves_besideLoad (s : State) (x : Byte) : ∀ op ∈ instrOps s (.lda x), Leaves State.besideLoad op := by
  simp [instrOps, addressMode, operandFetch, Leaves, State.besideLoad]

theorem ldi_leaves_besideLoad (s : State) (n : Byte) : ∀ op ∈ instrOps s (.ldi n), Leaves State.besideLoad op := by
  simp [instrOps, immediateMode, operandFetch, Leaves, State.besideLoad]

theorem sta_leaves_besideStore (s : State) (x : Byte) : ∀ op ∈ instrOps s (.sta x), Leaves State.besideStore op := by
  simp [instrOps, addressMode, operandFetch, Leaves, State.besideStore]

/-- An execution of `STA x` leaves memory as it is, if the host stops it before its last micro-step, and has written `A`
at `x` otherwise (R92). -/
theorem exec_sta_memory {s t : State} {x : Byte} (ht : exec (.sta x) s = .next t) :
    t.memory = s.memory ∨ t.memory = s.memory.write x s.a := by
  obtain ⟨done, hdone, n, l, st, rfl⟩ := exec_eq_assignAll_prefix ht
  rcases List.prefix_concat_iff.1 hdone with rfl | hdone
  · exact .inr rfl
  · exact .inl (assignAll_leaves State.memory done
      (fun op hop => addressMode_leaves_memory x op (hdone.subset hop)) s)

/-- Settles O19: no assignment of a load touches what the statement lists. -/
theorem loadFrame : Obligations.LoadFrame := by
  intro s t x ht
  have hbeside : t.besideLoad = s.besideLoad := by
    rcases ht with ht | ht
    · exact exec_leaves State.besideLoad ht (lda_leaves_besideLoad s x) (fun _ _ _ _ => rfl)
    · exact exec_leaves State.besideLoad ht (ldi_leaves_besideLoad s x) (fun _ _ _ _ => rfl)
  obtain ⟨hb, hi, ho, hz, hc, hm, hq, hp⟩ := (besideLoad_eq_iff t s).1 hbeside
  exact ⟨hb, hi, ho, hz, hc, hq, hp, fun addr => by rw [hm]⟩

/-- Settles O21: the store's only assignment beside `Mem` and `PC` is the write, and a write reaches one address. -/
theorem storeFrame : Obligations.StoreFrame := by
  intro s t x ht
  have hbeside : t.besideStore = s.besideStore :=
    exec_leaves State.besideStore ht (sta_leaves_besideStore s x) (fun _ _ _ _ => rfl)
  obtain ⟨ha, hb, hsum, hi, ho, hz, hc, hq, hp⟩ := (besideStore_eq_iff t s).1 hbeside
  refine ⟨ha, hb, hsum, hi, ho, hz, hc, hq, hp, ?_⟩
  intro addr haddr
  rcases exec_sta_memory ht with h | h
  · rw [h]
  · rw [h, Memory.read_write_ne _ _ _ _ haddr]

/-! ### Whole cycles (R91–R93) -/

/-- `PC` after the fetch of an opcode byte and of its operand byte (R80). -/
theorem fetched_pc_add_one (s : State) : s.fetched.pc + 1 = s.pc + 2 := BitVec.add_assoc s.pc 1 1

theorem fetched_answers_drop (s : State) (n : Nat) : s.fetched.answers.drop n = s.answers.drop (3 + n) :=
  List.drop_drop

/-- Settles O24: the fetch, and then the completion of `LDA` from the state it leaves. -/
theorem ldaCycle : Obligations.LdaCycle := by
  intro s hb hop hc
  obtain ⟨hlda, -⟩ := loadsComplete s.fetched s.operandByte hb.1
  rw [step_eq_exec_of_atOpcode s .lda hb hop (continues_mono s 3 8 hc (by omega)), Mnemonic.toInstr,
    hlda (fetched_continues s 5 hc), fetched_pc_add_one, fetched_answers_drop, ← hb.2]
  rfl

/-- Settles O25: the finished store is `s.stored`, and canonical memory reads back what was written. -/
theorem staCycle : Obligations.StaCycle := by
  intro s hb hwf hop hc
  have hi : s.nextInstr = .sta s.operandByte := nextInstr_of_atOpcode s .sta hop
  exact ⟨s.stored s.operandByte, step_sta s _ hb hc hi, rfl, fun addr => Memory.read_write _ _ _ addr hwf⟩

/-- Settles O26: the fetch, and then the completion of `LDI` from the state it leaves. -/
theorem ldiCycle : Obligations.LdiCycle := by
  intro s hb hop hc
  obtain ⟨-, hldi⟩ := loadsComplete s.fetched s.operandByte hb.1
  rw [step_eq_exec_of_atOpcode s .ldi hb hop (continues_mono s 3 7 hc (by omega)), Mnemonic.toInstr,
    hldi (fetched_continues s 4 hc), fetched_pc_add_one, fetched_answers_drop, ← hb.2]
  rfl

end Sys2Proof.Machine
end

section
/-! PROOFS. ADD, SUB, AEI, SEI, SHL and SLF (R94–R99): what their compute into `A` leaves, what they complete with, what
they leave alone, and their whole cycles. -/

namespace Sys2Proof.Machine

/-! ### The compute into `A` (R84, R85, R88, R89) -/

/-- The flagged addition (R85). -/
theorem flaggedCompute_false (s : State) :
    flaggedCompute false s =
      { s with sum := s.a + s.b, zero := decide (s.a + s.b = 0), carry := decide (256 ≤ s.a.toNat + s.b.toNat) } := by
  simp only [flaggedCompute, performArithmetic_zero, performArithmetic_add, performArithmetic_add_carry]

/-- The flagged subtraction: `Zero` says that the operands are equal, `Carry` that there is no borrow (R85). -/
theorem flaggedCompute_true (s : State) :
    flaggedCompute true s =
      { s with sum := s.a - s.b, zero := decide (s.a = s.b), carry := decide (s.b.toNat ≤ s.a.toNat) } := by
  simp only [flaggedCompute, performArithmetic_zero, performArithmetic_sub, performArithmetic_sub_carry, sub_eq_zero]

/-- The `Sum` that the refresh leaves once `A` holds `a - b` and `B` holds `b`: it adds `b` again, or subtracts it once
more (R89, D5). -/
def sumAfterDifference (r : RefreshOp) (a b : Byte) : Byte :=
  match r with
  | .add => a
  | .likeCompute => a - b - b

/-- Under the default `refreshOp` it is the old `A` (D5). -/
theorem sumAfterDifference_of_add {r : RefreshOp} (h : r = .add) (a b : Byte) : sumAfterDifference r a b = a := by
  rw [h]
  rfl

/-- The refresh of a difference in `A` (R89). -/
theorem refreshAfter_true (s : State) (a : Byte) (h : s.a = a - s.b) :
    refreshAfter true s = { s with sum := sumAfterDifference s.params.refreshOp a s.b } := by
  obtain ⟨honly, hadd, hlike⟩ := refreshWritesSumOnly true s
  rw [honly]
  cases hr : s.params.refreshOp with
  | add => rw [hadd hr, h, sub_add_cancel]; rfl
  | likeCompute => rw [hlike hr, h]; rfl

/-- `A <- A + B` with flags, and the refresh, which adds `B` once more (R94, R96). -/
theorem assignAll_computeIntoA_false (s : State) :
    assignAll (computeIntoA false) s =
      { s with a := s.a + s.b, sum := s.a + s.b + s.b, zero := decide (s.a + s.b = 0),
               carry := decide (256 ≤ s.a.toNat + s.b.toNat) } := by
  rw [computeIntoA, assignAll_cons, assignAll_cons, assignAll_cons, assignAll_nil, refreshAfter_false,
    flaggedCompute_false]
  rfl

/-- `A <- A - B` with flags, and the refresh (R95, R97). -/
theorem assignAll_computeIntoA_true (s : State) :
    assignAll (computeIntoA true) s =
      { s with a := s.a - s.b, sum := sumAfterDifference s.params.refreshOp s.a s.b, zero := decide (s.a = s.b),
               carry := decide (s.b.toNat ≤ s.a.toNat) } := by
  rw [computeIntoA, assignAll_cons, assignAll_cons, assignAll_cons, assignAll_nil, flaggedCompute_true,
    refreshAfter_true _ s.a rfl]
  rfl

/-- A byte added to itself with flags, and the refresh: `Carry` is its top bit, and `Zero` looks at the other seven
(R98, R99). -/
theorem assignAll_computeIntoA_double (s : State) (h : s.b = s.a) :
    assignAll (computeIntoA false) s =
      { s with a := 2 * s.a, sum := 3 * s.a, zero := decide (s.a.extractLsb' 0 7 = 0), carry := s.a.getLsbD 7 } := by
  have htriple : s.a + s.a + s.a = 3 * s.a := by ring
  rw [assignAll_computeIntoA_false, h, double_carry, double_zero, htriple, ← two_mul]

/-! ### All the assignments of each instruction (R94–R99) -/

theorem assignAll_add (s : State) (x : Byte) :
    assignAll (instrOps s (.add x)) s =
      { s with mem := x, pc := s.pc + 1, b := s.memory.read x, a := s.a + s.memory.read x,
               sum := s.a + s.memory.read x + s.memory.read x, zero := decide (s.a + s.memory.read x = 0),
               carry := decide (256 ≤ s.a.toNat + (s.memory.read x).toNat) } :=
  assignAll_computeIntoA_false { s with mem := x, pc := s.pc + 1, b := s.memory.read x }

theorem assignAll_sub (s : State) (x : Byte) :
    assignAll (instrOps s (.sub x)) s =
      { s with mem := x, pc := s.pc + 1, b := s.memory.read x, a := s.a - s.memory.read x,
               sum := sumAfterDifference s.params.refreshOp s.a (s.memory.read x),
               zero := decide (s.a = s.memory.read x), carry := decide ((s.memory.read x).toNat ≤ s.a.toNat) } :=
  assignAll_computeIntoA_true { s with mem := x, pc := s.pc + 1, b := s.memory.read x }

theorem assignAll_aei (s : State) (n : Byte) :
    assignAll (instrOps s (.aei n)) s =
      { s with mem := s.pc, pc := s.pc + 1, b := n, a := s.a + n, sum := s.a + n + n,
               zero := decide (s.a + n = 0), carry := decide (256 ≤ s.a.toNat + n.toNat) } :=
  assignAll_computeIntoA_false { s with mem := s.pc, pc := s.pc + 1, b := n }

theorem assignAll_sei (s : State) (n : Byte) :
    assignAll (instrOps s (.sei n)) s =
      { s with mem := s.pc, pc := s.pc + 1, b := n, a := s.a - n,
               sum := sumAfterDifference s.params.refreshOp s.a n, zero := decide (s.a = n),
               carry := decide (n.toNat ≤ s.a.toNat) } :=
  assignAll_computeIntoA_true { s with mem := s.pc, pc := s.pc + 1, b := n }

/-- The order of the two loads does not show (R98, D7). -/
theorem assignAll_shl (s : State) (x : Byte) :
    assignAll (instrOps s (.shl x)) s =
      { s with mem := x, pc := s.pc + 1, b := s.memory.read x, a := 2 * s.memory.read x, sum := 3 * s.memory.read x,
               zero := decide ((s.memory.read x).extractLsb' 0 7 = 0), carry := (s.memory.read x).getLsbD 7 } := by
  rw [instrOps, assignAll_append, assignAll_append, assignAll_shlLoads, assignAll_computeIntoA_double _ rfl]
  rfl

theorem assignAll_slf (s : State) :
    assignAll (instrOps s .slf) s =
      { s with b := s.a, a := 2 * s.a, sum := 3 * s.a, zero := decide (s.a.extractLsb' 0 7 = 0),
               carry := s.a.getLsbD 7 } :=
  assignAll_computeIntoA_double { s with b := s.a } rfl

theorem length_instrOps_shl (s : State) (x : Byte) : (instrOps s (.shl x)).length = 8 :=
  Nat.add_right_cancel (microStepCount_eq s (.shl x)).symm

/-! ### Completion (R94–R99) -/

/-- An instruction that does not halt and that the host lets finish completes with the state its assignments leave. -/
theorem exec_completes (i : Instr) (hi : endStatus i = .running) {s t : State} (hr : s.status = .running) (n : Nat)
    (hn : (instrOps s i).length = n) (h : s.continues n) (ht : assignAll (instrOps s i) s = t) :
    exec i s = .next { t with position := 0, answers := s.answers.drop n } := by
  rw [exec_continues i hi s hr n hn h, ht]

/-- Settles O13: four micro-steps load `B`, and three compute into `A`. -/
theorem memoryArithmeticCompletes : Obligations.MemoryArithmeticCompletes := by
  intro s x hr h
  constructor
  · exact exec_completes (.add x) rfl hr 7 rfl h (assignAll_add s x)
  · exact exec_completes (.sub x) rfl hr 7 rfl h (assignAll_sub s x)

/-- Settles O14: three micro-steps load `B`, and three compute into `A`. -/
theorem immediateArithmeticCompletes : Obligations.ImmediateArithmeticCompletes := by
  intro s n hr h
  constructor
  · exact exec_completes (.aei n) rfl hr 6 rfl h (assignAll_aei s n)
  · exact exec_completes (.sei n) rfl hr 6 rfl h (assignAll_sei s n)

/-- Settles O15: the loads leave one byte in `A` and `B`, and the compute doubles it. -/
theorem shiftsComplete : Obligations.ShiftsComplete := by
  intro s hr
  constructor
  · intro x h
    exact exec_completes (.shl x) rfl hr 8 (length_instrOps_shl s x) h (assignAll_shl s x)
  · intro h
    exact exec_completes .slf rfl hr 4 rfl h (assignAll_slf s)

/-! ### Frames (R94–R99) -/

/-- The byte being executed and the parameters, which no instruction writes once it is fetched. -/
def State.instructionAndParams (s : State) : Byte × Params := (s.instruction, s.params)

theorem instructionAndParams_eq_iff (s t : State) :
    s.instructionAndParams = t.instructionAndParams ↔ s.instruction = t.instruction ∧ s.params = t.params := by
  simp [State.instructionAndParams]

theorem instrOps_leave_instructionAndParams (s : State) (i : Instr) :
    ∀ op ∈ instrOps s i, Leaves State.instructionAndParams op := by
  cases i with
  | shl x =>
    have hloads : ∀ op ∈ shlLoads s.params, Leaves State.instructionAndParams op := by
      unfold shlLoads
      split <;> simp [Leaves, State.instructionAndParams]
    rw [instrOps, List.forall_mem_append, List.forall_mem_append]
    exact ⟨by simp [addressMode, operandFetch, Leaves, State.instructionAndParams], hloads,
      by simp [computeIntoA, Leaves, State.instructionAndParams]⟩
  | _ =>
    simp +contextual [instrOps, addressMode, immediateMode, operandFetch, computeIntoA, jumpIf, Leaves,
      State.instructionAndParams]

/-- `Mem` and `PC`, which an operand fetch writes (R79). -/
def State.memAndPc (s : State) : Byte × Byte := (s.mem, s.pc)

theorem memAndPc_eq_iff (s t : State) : s.memAndPc = t.memAndPc ↔ s.mem = t.mem ∧ s.pc = t.pc := by
  simp [State.memAndPc]

theorem slf_leaves_memAndPc (s : State) : ∀ op ∈ instrOps s .slf, Leaves State.memAndPc op := by
  simp [instrOps, computeIntoA, Leaves, State.memAndPc]

/-- Settles O20: of the micro-steps only those of STA, OUT and the fetch write memory, `Out` and `Instruction`, and SLF
has no operand fetch. -/
theorem arithmeticFrame : Obligations.ArithmeticFrame := by
  intro s t i x hi ht
  have hout : i ≠ .out := by rintro rfl; simp at hi
  have hsta : ∀ y, i ≠ .sta y := by rintro y rfl; simp at hi
  obtain ⟨hinstr, hparams⟩ := (instructionAndParams_eq_iff t s).1
    (exec_leaves State.instructionAndParams ht (instrOps_leave_instructionAndParams s i) (fun _ _ _ _ => rfl))
  obtain ⟨ho, hseq⟩ := (outputs_eq_iff t s).1
    (exec_leaves State.outputs ht (instrOps_leave_outputs s i hout) (fun _ _ _ _ => rfl))
  have hmem : t.memory = s.memory :=
    exec_leaves State.memory ht (instrOps_leave_memory s i hsta) (fun _ _ _ _ => rfl)
  refine ⟨hinstr, ho, hseq, hparams, fun addr => by rw [hmem], ?_⟩
  rintro rfl
  exact (memAndPc_eq_iff t s).1 (exec_leaves State.memAndPc ht (slf_leaves_memAndPc s) (fun _ _ _ _ => rfl))

/-! ### Whole cycles (R94–R99) -/

/-- A step from the opcode byte of mnemonic `m`, which does not halt and which the host lets finish, answers the state
that the assignments of `m` leave after the fetch (R44, R74). -/
theorem step_completes {s t : State} (m : Mnemonic) (hb : s.atBoundary) (hop : s.atOpcode m)
    (hm : endStatus (m.toInstr s.operandByte) = .running) (n : Nat)
    (hn : (instrOps s.fetched (m.toInstr s.operandByte)).length = n) (hc : s.continues (n + 3))
    (ht : assignAll (instrOps s.fetched (m.toInstr s.operandByte)) s.fetched = t) :
    step s = .next { t with position := s.position, answers := s.answers.drop (n + 3) } := by
  rw [step_eq_exec_of_atOpcode s m hb hop (continues_mono s 3 _ hc (by omega)),
    exec_completes (s := s.fetched) _ hm hb.1 n hn (fetched_continues s n hc) ht, fetched_answers_drop,
    Nat.add_comm 3 n, hb.2]

/-- Settles O27: the fetch, and then the assignments of `ADD` from the state it leaves. -/
theorem addCycle : Obligations.AddCycle := by
  intro s hb hop hc m
  have hsum : s.a + m + m = s.a + 2 * m := by rw [two_mul, add_assoc]
  rw [step_completes .add hb hop rfl 7 rfl hc (assignAll_add s.fetched s.operandByte), fetched_pc_add_one, ← hsum]
  rfl

/-- Settles O28: the fetch, and then the assignments of `SUB`, `SEI` or `SHL` from the state it leaves. -/
theorem subSeiShlCycles : Obligations.SubSeiShlCycles := by
  intro s hb hadd _ m n
  have hsum (b : Byte) : sumAfterDifference s.fetched.params.refreshOp s.fetched.a b = s.a :=
    sumAfterDifference_of_add hadd s.a b
  refine ⟨fun hop hc => ?_, fun hop hc => ?_, fun hop hc => ?_⟩
  · rw [step_completes .sub hb hop rfl 7 rfl hc (assignAll_sub s.fetched n), fetched_pc_add_one, hsum]
    rfl
  · rw [step_completes .sei hb hop rfl 6 rfl hc (assignAll_sei s.fetched n), fetched_pc_add_one, hsum]
    rfl
  · rw [step_completes .shl hb hop rfl 8 (length_instrOps_shl _ _) hc (assignAll_shl s.fetched n), fetched_pc_add_one]
    rfl

/-- Settles O29: the fetch, and then the assignments of `AEI` from the state it leaves. -/
theorem aeiCycle : Obligations.AeiCycle := by
  intro s hb hop hc n
  rw [step_completes .aei hb hop rfl 6 rfl hc (assignAll_aei s.fetched n), fetched_pc_add_one]
  rfl

/-- Settles O30: the fetch, and then the assignments of `SLF` from the state it leaves. -/
theorem slfCycle : Obligations.SlfCycle := by
  intro s hb hop hc
  exact step_completes .slf hb hop rfl 4 rfl hc (assignAll_slf s.fetched)

end Sys2Proof.Machine
end

section
/-! PROOFS. JMP, JC and JZ (R100–R103): what they complete with, what they leave alone, their whole cycles, and the jump
to itself, which hangs (R115). -/

namespace Sys2Proof.Machine

/-! ### Completion (R101–R103) -/

/-- All the assignments of a jump: the operand fetch, and the target in `PC` if the jump is taken. -/
theorem assignAll_jump (s : State) (taken : Bool) (x : Byte) :
    assignAll (immediateMode ++ jumpIf taken x) s = { s with mem := s.pc, pc := if taken then x else s.pc + 1 } := by
  cases taken <;> rfl

theorem length_jump (taken : Bool) (x : Byte) : (immediateMode ++ jumpIf taken x).length = if taken then 3 else 2 := by
  cases taken <;> rfl

/-- A jump that the host lets finish; one not taken asks the host once less. -/
theorem exec_jump {s : State} {i : Instr} {taken : Bool} {x : Byte}
    (hops : instrOps s i = immediateMode ++ jumpIf taken x) (hi : endStatus i = .running) (hr : s.status = .running)
    (h : s.continues (if taken then 3 else 2)) :
    exec i s = .next { s with mem := s.pc, pc := if taken then x else s.pc + 1, position := 0,
                              answers := s.answers.drop (if taken then 3 else 2) } :=
  exec_completes i hi hr _ (by rw [hops, length_jump]) h (by rw [hops, assignAll_jump])

/-- Settles O16: JMP is always taken, JC if `Carry` and JZ if `Zero` is set. -/
theorem jumpsComplete : Obligations.JumpsComplete := by
  intro s x hr
  refine ⟨fun h => ?_, fun h => ?_, fun h => ?_⟩
  · exact exec_jump (i := .jmp x) (taken := true) rfl rfl hr h
  · exact exec_jump (i := .jc x) (taken := s.carry) rfl rfl hr h
  · exact exec_jump (i := .jz x) (taken := s.zero) rfl rfl hr h

/-! ### Frame (R100) -/

/-- A jump writes `Mem` and `PC` alone. -/
theorem jump_leaves_besideStore (taken : Bool) (x : Byte) :
    ∀ op ∈ immediateMode ++ jumpIf taken x, Leaves State.besideStore op := by
  cases taken <;> simp [immediateMode, operandFetch, jumpIf, Leaves, State.besideStore]

/-- Settles O22: a jump leaves all that a store leaves, and only a store writes memory. -/
theorem jumpFrame : Obligations.JumpFrame := by
  intro s t i x hi ht
  have hsta : ∀ y, i ≠ .sta y := by rintro y rfl; simp at hi
  have hops : ∀ op ∈ instrOps s i, Leaves State.besideStore op := by
    rcases hi with rfl | rfl | rfl
    · exact jump_leaves_besideStore true x
    · exact jump_leaves_besideStore s.carry x
    · exact jump_leaves_besideStore s.zero x
  have hmem : t.memory = s.memory :=
    exec_leaves State.memory ht (instrOps_leave_memory s i hsta) (fun _ _ _ _ => rfl)
  obtain ⟨ha, hb, hsum, hinstr, ho, hz, hc, hq, hp⟩ := (besideStore_eq_iff t s).1
    (exec_leaves State.besideStore ht hops (fun _ _ _ _ => rfl))
  exact ⟨ha, hb, hsum, hinstr, ho, hz, hc, hq, hp, fun addr => by rw [hmem]⟩

/-! ### Whole cycles (R101–R103) -/

/-- A jump from its bytes, which the host lets finish: the fetch, and then its completion from the state that leaves. -/
theorem step_jump {s : State} {taken : Bool} (m : Mnemonic) (hb : s.atBoundary) (hop : s.atOpcode m)
    (hops : instrOps s.fetched (m.toInstr s.operandByte) = immediateMode ++ jumpIf taken s.operandByte)
    (hm : endStatus (m.toInstr s.operandByte) = .running) (h : s.continues (if taken then 6 else 5)) :
    step s = .next { s with mem := s.pc + 1, pc := if taken then s.operandByte else s.pc + 2, instruction := s.opcode,
                            answers := s.answers.drop (if taken then 6 else 5) } := by
  have htotal : (if taken then 6 else 5) = (if taken then 3 else 2) + 3 := by cases taken <;> rfl
  rw [htotal] at h ⊢
  rw [step_eq_exec_of_atOpcode s m hb hop (continues_mono s 3 _ h (by omega)),
    exec_jump hops hm hb.1 (fetched_continues s _ h), fetched_pc_add_one, fetched_answers_drop, Nat.add_comm 3,
    ← hb.2]
  rfl

/-- Settles O31: JMP is always taken, JC if `Carry` and JZ if `Zero` is set, and the fetch writes no flag. -/
theorem jumpCycles : Obligations.JumpCycles := by
  intro s hb
  refine ⟨fun hop h => ?_, fun hop h => ?_, fun hop h => ?_⟩
  · exact step_jump (taken := true) .jmp hb hop rfl rfl h
  · exact step_jump (taken := s.carry) .jc hb hop rfl rfl h
  · exact step_jump (taken := s.zero) .jz hb hop rfl rfl h

/-! ### Hanging (R115) -/

theorem microRun_add (m n : Nat) (s : State) : microRun (m + n) s = microRun n (microRun m s) := by
  induction m generalizing s with
  | zero => rw [Nat.zero_add, microRun]
  | succ m ih => rw [Nat.succ_add, microRun, microRun, ih]

/-- A run that still goes on after some micro-steps was going on before them. -/
theorem running_of_microRun_running {n : Nat} {s : State} (h : (microRun n s).status = .running) :
    s.status = .running := by
  induction n generalizing s with
  | zero => exact h
  | succ n ih => exact running_of_micro_running s (ih h)

/-- The rest of an instruction is one micro-step or more (R25). -/
theorem exists_finish_eq_microRun (fuel : Nat) (s : State) : ∃ n, finish (fuel + 1) s = microRun (n + 1) s := by
  induction fuel generalizing s with
  | zero => exact ⟨0, ite_self _⟩
  | succ fuel ih =>
    rw [finish]
    split
    case isTrue =>
      obtain ⟨n, hn⟩ := ih (micro s)
      exact ⟨n + 1, hn⟩
    case isFalse => exact ⟨0, rfl⟩

/-- A step from a boundary is one micro-step or more (R74). -/
theorem exists_microRun_of_step {s t : State} (hb : s.atBoundary) (h : step s = .next t) :
    ∃ n, t = microRun (n + 1) s := by
  rw [step_eq_cycleOps s hb, ← finish_eq_cycleOps s hb] at h
  obtain rfl := Host.Outcome.next.inj h
  exact exists_finish_eq_microRun 10 s

/-- A kind of boundary that every step comes back to is met again after any number of micro-steps. -/
theorem exists_microRun_returns (P : State → Prop) (hb : ∀ s, P s → s.atBoundary)
    (hstep : ∀ s, P s → ∃ t, step s = .next t ∧ P t) (k : Nat) (s : State) (h : P s) :
    ∃ n, P (microRun (k + n) s) := by
  induction k generalizing s with
  | zero => exact ⟨0, h⟩
  | succ k ih =>
    obtain ⟨t, ht, hPt⟩ := hstep s h
    obtain ⟨n, rfl⟩ := exists_microRun_of_step (hb s h) ht
    obtain ⟨m, hm⟩ := ih _ hPt
    have hsum : n + 1 + (k + m) = k + 1 + (n + m) := by omega
    rw [← microRun_add, hsum] at hm
    exact ⟨n + m, hm⟩

/-- A run whose steps all come back to a kind of boundary hangs: it goes on at each, and so at all between (R115). -/
theorem hangs_of_step_returns (P : State → Prop) (hb : ∀ s, P s → s.atBoundary)
    (hstep : ∀ s, P s → ∃ t, step s = .next t ∧ P t) (s : State) (h : P s) : Hangs s := by
  intro k
  obtain ⟨n, hn⟩ := exists_microRun_returns P hb hstep k s h
  rw [microRun_add] at hn
  exact running_of_microRun_running (hb _ hn).1

/-- At a boundary before a jump to itself, under a host that always answers `Continue`. -/
def JumpsToSelf (s : State) : Prop :=
  s.atBoundary ∧ s.answers = [] ∧ s.atOpcode .jmp ∧ s.operandByte = s.pc

/-- The step of a jump to itself leaves `PC`, memory and the parameters, and with them the jump at `PC`. -/
theorem step_jumpsToSelf (s : State) (h : JumpsToSelf s) : ∃ t, step s = .next t ∧ JumpsToSelf t := by
  obtain ⟨hb, ha, hop, hself⟩ := h
  obtain ⟨hjmp, -, -⟩ := jumpCycles s hb
  have hc : s.continues 6 := by simp [State.continues, ha]
  refine ⟨_, hjmp hop hc, ?_⟩
  rw [hself]
  exact ⟨hb, by rw [ha]; rfl, hop, hself⟩

/-- Settles O50: each step ends where it began, before the same jump. -/
theorem jumpToSelfHangs : Obligations.JumpToSelfHangs := by
  intro s hb ha hop hself
  exact hangs_of_step_returns JumpsToSelf (fun _ h => h.1) step_jumpsToSelf s ⟨hb, ha, hop, hself⟩

end Sys2Proof.Machine
end

section
/-! PROOFS. NOP, OUT, HLT and the undefined opcode (R104–R107): what they complete with, what they leave alone, and their
whole cycles, of which those that halt end the run (R113). -/

namespace Sys2Proof.Machine

/-! ### Completion (R104–R107) -/

/-- An instruction without a micro-step after its fetch asks the host nothing: it sets the status it ends with, at a
boundary, whatever the answers are. -/
theorem exec_of_no_ops {i : Instr} {s : State} (hops : instrOps s i = []) (hr : s.status = .running) :
    exec i s = .next { s with status := endStatus i, position := 0 } := by
  rw [exec_eq, hops, runMicro, closeInstr, if_pos hr]

/-- Settles O17: NOP has no micro-step to let pass, and OUT has one. -/
theorem nopAndOutComplete : Obligations.NopAndOutComplete := by
  intro s hr
  constructor
  · exact exec_completes .nop rfl hr 0 rfl (by simp [State.continues]) rfl
  · intro h
    exact exec_completes .out rfl hr 1 rfl h rfl

/-- Settles O18: neither has a micro-step, and each ends with its own reason. -/
theorem haltsComplete : Obligations.HaltsComplete := fun _ hr =>
  ⟨exec_of_no_ops (i := .hlt) rfl hr, exec_of_no_ops (i := .undefined) rfl hr⟩

/-! ### Frame (R104–R107) -/

/-- A state without what OUT writes, and without what any micro-step moves. -/
def State.besideOutputs (s : State) : State :=
  { s with out := 0, outSeq := [], position := 0, answers := [], status := .running }

theorem besideOutputs_eq_iff (s t : State) :
    s.besideOutputs = t.besideOutputs ↔
      s.mem = t.mem ∧ s.a = t.a ∧ s.b = t.b ∧ s.sum = t.sum ∧ s.instruction = t.instruction ∧ s.pc = t.pc ∧
      s.zero = t.zero ∧ s.carry = t.carry ∧ s.memory = t.memory ∧ s.params = t.params := by
  simp [State.besideOutputs]

/-- The four have one micro-step between them, that of OUT, and it writes `Out` and the `Out` sequence. -/
theorem oneByte_leaves_besideOutputs (s : State) {i : Instr} (hi : i = .nop ∨ i = .out ∨ i = .hlt ∨ i = .undefined) :
    ∀ op ∈ instrOps s i, Leaves State.besideOutputs op := by
  rcases hi with rfl | rfl | rfl | rfl
  case inr.inl => simp [instrOps, Leaves, State.besideOutputs]
  all_goals simp [instrOps]

/-- Settles O23: the only assignment of the four is OUT's, and only OUT's writes `Out`. -/
theorem oneByteFrame : Obligations.OneByteFrame := by
  intro s t i hi ht
  obtain ⟨hm, ha, hb, hsum, hinstr, hpc, hz, hc, hmem, hp⟩ := (besideOutputs_eq_iff t s).1
    (exec_leaves State.besideOutputs ht (oneByte_leaves_besideOutputs s hi) (fun _ _ _ _ => rfl))
  refine ⟨hm, ha, hb, hsum, hinstr, hpc, hz, hc, hp, fun addr => by rw [hmem], fun hout => ?_⟩
  exact (outputs_eq_iff t s).1
    (exec_leaves State.outputs ht (instrOps_leave_outputs s i hout) (fun _ _ _ _ => rfl))

/-! ### Whole cycles (R104–R107) -/

/-- Settles O32: the fetch, and then the assignments of `NOP` or `OUT` from the state it leaves. -/
theorem nopOutCycles : Obligations.NopOutCycles := by
  intro s hb
  refine ⟨fun hop hc => ?_, fun hop hc => ?_⟩
  · exact step_completes .nop hb hop rfl 0 rfl hc rfl
  · exact step_completes .out hb hop rfl 1 rfl hc rfl

/-- A code that no mnemonic has is undefined under either low-nibble policy (R45, R51). -/
theorem decodeOpcode_of_lookup_none {p : Params} {opcode : Byte}
    (h : p.opcodeMap.lookup (highNibble opcode) = none) : decodeOpcode p opcode = none := by
  rw [decodeOpcode, h]
  cases p.lowNibblePolicy
  case ignore => rfl
  case haltIfNonzero => exact ite_self none

/-- The instruction at the vacant code is the undefined one (R107). -/
theorem nextInstr_of_atVacantCode (s : State) (h : s.atVacantCode) : s.nextInstr = .undefined := by
  have hlookup : s.params.opcodeMap.lookup (highNibble s.opcode) = none :=
    (lookup_eq_none _ _).2 fun m => h.2 m (mem_all m)
  exact decodePair_of_none (decodeOpcode_of_lookup_none hlookup) s.operandByte

/-- A step of an instruction without a micro-step after its fetch: the fetch, and the status the instruction ends
with (R74). -/
theorem step_of_no_ops {s : State} {i : Instr} (hb : s.atBoundary) (hc : s.continues 3) (hi : s.nextInstr = i)
    (hops : instrOps s.fetched i = []) :
    step s = .next { s with mem := s.pc, pc := s.pc + 1, instruction := s.opcode, status := endStatus i,
                            answers := s.answers.drop 3 } := by
  rw [step_eq_exec s hb hc, hi, exec_of_no_ops hops hb.1, ← hb.2]
  rfl

/-- Settles O33: HLT and the undefined opcode set their status right after the fetch, and an ended run does not step. -/
theorem haltCycles : Obligations.HaltCycles := by
  intro s hb hc reason h
  refine ⟨_, ?_, step_of_ended _ (by simp), rfl⟩
  rcases h with ⟨rfl, hop⟩ | ⟨rfl, hop⟩
  · exact step_of_no_ops hb hc (nextInstr_of_atOpcode s .hlt hop) rfl
  · exact step_of_no_ops hb hc (nextInstr_of_atVacantCode s hop) rfl

end Sys2Proof.Machine
end

section
/-! PROOFS. The ends of a run (R113, R114, R117, R118): the invariant that every step keeps, the pacing parameters, and
what a host is shown of a run. -/

namespace Sys2Proof.Machine

/-! ### The invariant (R18, R28, R113, R114) -/

/-- Only `STA` writes memory, and a write keeps it canonical (R28, R40). -/
theorem step_keeps_memory_wf {s t : State} (hb : s.atBoundary) (ht : step s = .next t) (h : s.memory.wf) :
    t.memory.wf := by
  by_cases hsta : ∃ x, s.nextInstr = .sta x
  · obtain ⟨x, hi⟩ := hsta
    rw [step_eq_closeInstr s hb, hi] at ht
    obtain rfl := Host.Outcome.next.inj ht
    rw [closeInstr_memory]
    rcases runMicro_sta_memory s x with hm | hm <;> rw [hm]
    · exact h
    · exact Memory.write_wf _ _ _ h
  · obtain ⟨hother, -⟩ := onlyStaWritesMemory s t hb ht
    rw [hother (not_exists.1 hsta)]
    exact h

/-- Of the micro-steps of a cycle only `Out <- A` writes `Out` or the `Out` sequence (R105). -/
theorem eq_outFromA_or_leaves_outputs {s : State} {i : Instr} {op : MicroOp} (hop : op ∈ fetchOps ++ instrOps s i) :
    op = outFromA ∨ Leaves State.outputs op := by
  rcases List.mem_append.1 hop with hop | hop
  · exact .inr (fetchOps_leave_outputs op hop)
  · by_cases hi : i = .out
    · subst hi
      exact .inl (List.mem_singleton.1 hop)
    · exact .inr (instrOps_leave_outputs s i hi op hop)

theorem outSound_outFromA (s : State) : (outFromA s).outSound :=
  .inr List.getLast?_concat

theorem outSound_congr {s t : State} (h : t.outputs = s.outputs) (hs : s.outSound) : t.outSound := by
  obtain ⟨hout, hseq⟩ := (outputs_eq_iff t s).1 h
  rw [State.outSound, hout, hseq]
  exact hs

/-- `Out` stays the last value put out, since the micro-step that writes it puts the same value out (R18). -/
theorem step_keeps_outSound {s t : State} (hb : s.atBoundary) (ht : step s = .next t) (h : s.outSound) :
    t.outSound := by
  refine step_keeps State.outSound s t hb ht ?_ (fun _ _ _ _ hu => hu) h
  intro op hop u hu
  rcases eq_outFromA_or_leaves_outputs hop with rfl | hleave
  · exact outSound_outFromA u
  · exact outSound_congr (hleave u) hu

theorem statusSound_of_running {s : State} (h : s.status = .running) (hp : s.position = 0) : s.statusSound := by
  rw [State.statusSound, h]
  exact hp

theorem statusSound_of_cancelled {s : State} (h : s.status = .cancelled) (hlo : 1 ≤ s.position)
    (hhi : s.position ≤ longestCycle) : s.statusSound := by
  rw [State.statusSound, h]
  exact ⟨hlo, hhi⟩

theorem statusSound_of_hlt {s : State} (h : s.status = .halted .hlt) (hp : s.position = 0) (hpc : s.pc = s.mem + 1)
    (hd : decodeOpcode s.params s.instruction = some .hlt) : s.statusSound := by
  rw [State.statusSound, h]
  exact ⟨hp, hpc, hd⟩

theorem statusSound_of_undefined {s : State} (h : s.status = .halted .undefinedOpcode) (hp : s.position = 0)
    (hpc : s.pc = s.mem + 1) (hd : decodeOpcode s.params s.instruction = none) : s.statusSound := by
  rw [State.statusSound, h]
  exact ⟨hp, hpc, hd⟩

/-- No instruction has more micro-steps than `SHL` (40_engine.md section 7). -/
theorem microStepCount_le (c z : Bool) (i : Instr) : microStepCount c z i ≤ longestCycle := by
  cases i with
  | jc t | jz t =>
    simp only [microStepCount, longestCycle]
    split <;> omega
  | _ => simp [microStepCount, longestCycle]

theorem fetch_instrOps_length_le (s : State) (i : Instr) : (fetchOps ++ instrOps s i).length ≤ longestCycle := by
  have hcount := microStepCount_eq s i
  have hle := microStepCount_le s.carry s.zero i
  have hthree : fetchOps.length = 3 := rfl
  rw [List.length_append]
  omega

/-- The run of an instruction that halts is its fetch alone (R87). -/
theorem runMicro_of_halting (s : State) {i : Instr} {r : HaltReason} (h : endStatus i = .halted r) :
    runMicro (fetchOps ++ instrOps s i) s = fetch s := by
  rw [instrOps_of_halting s i r h, List.append_nil, fetch]

/-- A run that goes on to the end of its instruction is left `Running` at a boundary, or halted right after MS3 by the
instruction then in `Instruction` (R113). -/
theorem statusSound_closeInstr_of_running {s : State} (hr : s.status = .running)
    (hrun : (runMicro (fetchOps ++ instrOps s s.nextInstr) s).status = .running) :
    (closeInstr s.nextInstr (runMicro (fetchOps ++ instrOps s s.nextInstr) s)).statusSound := by
  have atMs3 (hf : (fetch s).status = .running) : (fetch s).pc = (fetch s).mem + 1 := by
    obtain ⟨hmem, hpc, -, -⟩ := fetch_running s hr hf
    rw [hpc, hmem]
  rw [closeInstr, if_pos hrun]
  rcases endStatus_decodePair s.params s.opcode s.operandByte with h | ⟨h, hd⟩ | ⟨h, hd⟩
  · exact statusSound_of_running h rfl
  · rw [runMicro_of_halting s h] at hrun ⊢
    exact statusSound_of_hlt h rfl (atMs3 hrun) ((decodeOpcode_fetch s hr hrun).trans hd)
  · rw [runMicro_of_halting s h] at hrun ⊢
    exact statusSound_of_undefined h rfl (atMs3 hrun) ((decodeOpcode_fetch s hr hrun).trans hd)

/-- What stands beside the status after a step from a boundary (R113, R114). -/
theorem step_statusSound {s t : State} (hb : s.atBoundary) (ht : step s = .next t) : t.statusSound := by
  rw [step_eq_closeInstr s hb] at ht
  obtain rfl := Host.Outcome.next.inj ht
  obtain ⟨hr, hp⟩ := hb
  rcases runMicro_status _ (plain_fetch_instrOps s s.nextInstr) s hr with hrun | ⟨hc, hlo, hhi, -⟩
  · exact statusSound_closeInstr_of_running hr hrun
  · have hlen := fetch_instrOps_length_le s s.nextInstr
    rw [closeInstr_of_ended _ _ (by simp [hc])]
    exact statusSound_of_cancelled hc (by omega) (by omega)

/-- A sound `Running` engine is at a boundary. -/
theorem State.Inv.betweenSteps {s : State} (h : s.Inv) : BetweenSteps s := by
  obtain ⟨-, hst, -⟩ := h
  intro hr
  rwa [State.statusSound, hr] at hst

/-- Settles O38: an ended engine stays as it is; a sound `Running` one is at a boundary, from where a step keeps memory
canonical, ends with a status that fits the run of its micro-steps, and puts out what it writes to `Out`. -/
theorem stepKeepsInvariant : Obligations.StepKeepsInvariant := by
  intro s t hs ht
  by_cases hr : s.status = .running
  · have hb : s.atBoundary := ⟨hr, hs.betweenSteps hr⟩
    obtain ⟨hmem, -, hout⟩ := hs
    exact ⟨step_keeps_memory_wf hb ht hmem, step_statusSound hb ht, step_keeps_outSound hb ht hout⟩
  · rw [step_of_ended s hr] at ht
    obtain rfl := Host.Outcome.next.inj ht
    exact hs

/-! ### Pacing (R117, R135) -/

@[simp] theorem withPacing_status (s : State) (auto : Bool) (hz : Nat) :
    (s.withPacing auto hz).status = s.status := rfl
@[simp] theorem withPacing_position (s : State) (auto : Bool) (hz : Nat) :
    (s.withPacing auto hz).position = s.position := rfl
@[simp] theorem withPacing_instruction (s : State) (auto : Bool) (hz : Nat) :
    (s.withPacing auto hz).instruction = s.instruction := rfl
@[simp] theorem decodeOpcode_withPacing (s : State) (auto : Bool) (hz : Nat) (opcode : Byte) :
    decodeOpcode (s.withPacing auto hz).params opcode = decodeOpcode s.params opcode := rfl

/-- An assignment that neither reads nor writes the pacing parameters. -/
def IgnoresPacing (op : MicroOp) : Prop :=
  ∀ s auto hz, op (s.withPacing auto hz) = (op s).withPacing auto hz

theorem assignments_ignore_pacing : ∀ op ∈ assignments, IgnoresPacing op := by
  intro op hop s auto hz
  unfold assignments at hop
  fin_cases hop <;> rfl

theorem emit_withPacing (s : State) (auto : Bool) (hz : Nat) :
    (s.withPacing auto hz).emit = s.emit.withPacing auto hz := by
  rcases s with ⟨_, _, _, _, _, _, _, _, _, _, _, _, _, answers, _⟩
  rcases answers with _ | ⟨_ | _, _⟩ <;> rfl

theorem microStep_withPacing {op : MicroOp} (h : IgnoresPacing op) (s : State) (auto : Bool) (hz : Nat) :
    microStep op (s.withPacing auto hz) = (microStep op s).withPacing auto hz := by
  rw [microStep, h]
  exact emit_withPacing { op s with position := s.position + 1 } auto hz

theorem endCycle_withPacing (s : State) (auto : Bool) (hz : Nat) :
    endCycle (s.withPacing auto hz) = (endCycle s).withPacing auto hz := by
  rw [endCycle, endCycle, apply_ite (State.withPacing auto hz), withPacing_status]
  rfl

theorem haltRun_withPacing (r : HaltReason) (s : State) (auto : Bool) (hz : Nat) :
    haltRun r (s.withPacing auto hz) = (haltRun r s).withPacing auto hz := by
  rw [haltRun, haltRun, apply_ite (State.withPacing auto hz), withPacing_status]
  rfl

/-- Which micro-steps an instruction has does not depend on the pacing parameters. -/
theorem decodedOps_withPacing (s : State) (auto : Bool) (hz : Nat) :
    decodedOps (s.withPacing auto hz) = decodedOps s := rfl

theorem nextOp_withPacing (s : State) (auto : Bool) (hz : Nat) :
    nextOp (s.withPacing auto hz) = nextOp s := rfl

theorem settle_withPacing (s : State) (auto : Bool) (hz : Nat) :
    settle (s.withPacing auto hz) = (settle s).withPacing auto hz := by
  unfold settle
  rw [withPacing_position, withPacing_instruction, decodeOpcode_withPacing, decodedOps_withPacing,
    haltRun_withPacing, haltRun_withPacing, endCycle_withPacing]
  split
  · rfl
  · split
    · rfl
    · rfl
    · split <;> rfl

theorem micro_withPacing (s : State) (auto : Bool) (hz : Nat) :
    micro (s.withPacing auto hz) = (micro s).withPacing auto hz := by
  unfold micro
  rw [withPacing_status, nextOp_withPacing]
  split
  · split
    case h_1 op hop =>
      have hignores := assignments_ignore_pacing op (nextOp_mem_assignments s op hop)
      rw [microStep_withPacing hignores, settle_withPacing]
    case h_2 => exact endCycle_withPacing s auto hz
  · rfl

theorem finish_withPacing (fuel : Nat) (s : State) (auto : Bool) (hz : Nat) :
    finish fuel (s.withPacing auto hz) = (finish fuel s).withPacing auto hz := by
  induction fuel generalizing s with
  | zero => rfl
  | succ fuel ih =>
    rw [finish, finish, micro_withPacing, withPacing_status, withPacing_position, ih,
      apply_ite (State.withPacing auto hz)]

/-- Settles O48: a step is its micro-steps, and neither the choice of a micro-step, nor its assignment, nor its query,
nor what follows it reads a pacing parameter. -/
theorem pacingChangesNoResult : Obligations.PacingChangesNoResult := by
  intro s t auto hz ht
  rw [stepIsItsMicroSteps s] at ht
  obtain rfl := Host.Outcome.next.inj ht
  rw [stepIsItsMicroSteps, finish_withPacing]

/-! ### Snapshots (R76, R87, R118) -/

theorem emitted_of_nextOp {s : State} {op : MicroOp} (hr : s.status = .running) (hop : nextOp s = some op) :
    emitted s = some (op s).snapshot := by
  rw [emitted, if_pos hr, hop, Option.map_some]

/-- The state after a micro-step looks to the host like the one after its assignment, but for the status that a `Stop`
sets (R76, R114). -/
theorem snapshot_microStep {op : MicroOp} (hp : Plain op) {s : State} (hr : s.status = .running) :
    { (microStep op s).snapshot with status := .running } = (op s).snapshot := by
  have hstatus : (op s).snapshot.status = .running := (hp.status s).trans hr
  rw [microStep_eq op hp s, ← hstatus]
  rfl

theorem snapshot_microStep_of_continues {op : MicroOp} (hp : Plain op) {s : State} (h : s.continues 1) :
    (microStep op s).snapshot = (op s).snapshot := by
  rw [microStep_proceed op hp s h]
  rfl

/-- What a micro-step emits shows a `Running` engine, since only the answer to it can end the run (R76, R87). -/
theorem emitted_status {s : State} {snap : Snapshot} (h : emitted s = some snap) : snap.status = .running := by
  unfold emitted at h
  split at h
  case isTrue hr =>
    obtain ⟨op, hop, rfl⟩ := Option.map_eq_some_iff.1 h
    exact ((plain_assignments op (nextOp_mem_assignments s op hop)).status s).trans hr
  case isFalse => exact absurd h (by simp)

theorem snapshots_status (n : Nat) (s : State) : ∀ snap ∈ snapshots n s, snap.status = .running := by
  induction n generalizing s with
  | zero => simp [snapshots]
  | succ n ih =>
    rw [snapshots, List.forall_mem_append]
    exact ⟨fun snap hsnap => emitted_status (Option.mem_toList.1 hsnap), ih (micro s)⟩

/-- Settles O51: what is emitted is taken between a micro-step's assignment and its query, and of what a snapshot shows
the query moves the status alone. -/
theorem snapshotsShowRunningState : Obligations.SnapshotsShowRunningState := by
  refine ⟨?_, snapshots_status⟩
  intro s op hr hop
  have hp : Plain op := plain_assignments op (nextOp_mem_assignments s op hop)
  have hemitted := emitted_of_nextOp hr hop
  refine ⟨hemitted, ?_, fun hc => ?_⟩
  · rw [snapshot_microStep hp hr, hemitted]
  · rw [snapshot_microStep_of_continues hp hc, hemitted]

end Sys2Proof.Machine
end

section
/-! PROOFS. The invariant at the start of a run (R26, R125), from where `stepKeepsInvariant` carries it on. -/

namespace Sys2Proof.Machine

/-- A run starts `Running` at a boundary, with nothing put out yet, so the memory it is given decides whether its start
state is sound (R26). -/
theorem start_inv {m : Memory} (hm : m.wf) (p : Params) (r : ResetRegs) (l : List HostAnswer) :
    (State.start p r m l).Inv := by
  have hstatus : (State.start p r m l).statusSound :=
    statusSound_of_running (start_status p r m l) (start_position p r m l)
  have hout : (State.start p r m l).outSound := .inl (start_outSeq p r m l)
  exact ⟨hm, hstatus, hout⟩

/-- Settles O39: every start state with canonical memory is sound, and `State.reset` is one, with no image loaded. -/
theorem invariantAtReset : Obligations.InvariantAtReset :=
  ⟨start_inv reset_memory_wf Params.standard ResetRegs.standard [], fun p r _ l hm => start_inv hm p r l⟩

end Sys2Proof.Machine
end
